-- ==== Sys2Proof/Word.lean ====
section
/-! DEFINITION. The word types of the engine (00_scope.md R3): bytes, 32-bit words, 64-bit block
indices, the 16-word register file, the 64-byte output buffer, packets. Nothing is computed here. -/

namespace Sys2Proof

/-- A byte. -/
abbrev Byte := BitVec 8

/-- "A word is 32 bits" (00_scope.md R3). -/
abbrev Word := BitVec 32

/-- A block index or block counter value: 64 bits (00_scope.md R3). -/
abbrev BlockIndex := BitVec 64

/-- An array of 16 words: the register files `W` and `X`, and the output words `Y`. -/
abbrev Words := Vector Word 16

/-- A keystream block, and the output buffer `OUT`: 64 bytes. -/
abbrev Block := Vector Byte 64

/-- A command or response packet: a byte string of known length (30_encoding.md R71). -/
abbrev Packet := List Byte

end Sys2Proof
end

