-- ==== Sys2Proof/Machine/Operands.lean ====
section
/-! DEFINITION. Operand assembly: little-endian fields (30_encoding.md R84; 00_scope.md R6;
20_memory.md R51 to R54) and the two halves of the block counter (20_memory.md R53). Every byte
order of the model is decided here. -/

namespace Sys2Proof.Machine

/-- A byte string as one unsigned little-endian number: the sum over `i` of `bs[i] * 2^(8*i)`
(30_encoding.md R84). -/
def leNat : List Byte → Nat
  | [] => 0
  | b :: bs => b.toNat + 256 * leNat bs

/-- The `n` low bytes of `v`, least significant first. -/
def leBytes : Nat → Nat → List Byte
  | 0, _ => []
  | n + 1, v => BitVec.ofNat 8 v :: leBytes n (v / 256)

/-- `BYTES_LE32(w)` (00_scope.md R6). -/
def wordBytes (w : Word) : List Byte :=
  leBytes 4 w.toNat

/-- The `size` bytes of `bs` from `offset` on, as a little-endian number (30_encoding.md R84). -/
def fieldAt (bs : List Byte) (offset size : Nat) : Nat :=
  leNat ((bs.drop offset).take size)

/-- `LE32` of the four bytes of `bs` from `offset` on (00_scope.md R6; 20_memory.md R52). -/
def wordAt (bs : List Byte) (offset : Nat) : Word :=
  BitVec.ofNat 32 (fieldAt bs offset 4)

/-- The 64-bit value of two words, low word first (20_memory.md R53). -/
def joinWords (lo hi : Word) : BlockIndex :=
  hi ++ lo

/-- `n[31:0]` (20_memory.md R53). -/
def lowWord (n : BlockIndex) : Word :=
  n.extractLsb' 0 32

/-- `n[63:32]` (20_memory.md R53). -/
def highWord (n : BlockIndex) : Word :=
  n.extractLsb' 32 32

end Sys2Proof.Machine
end

