-- ==== Sys2Proof/Syntax.lean ====
section
/-! DEFINITION. The commands (30_encoding.md R70): one constructor per row of
spec/opcode_table.json, on the abstract operands of R70. A byte string carries its own length, so
`key_len`, `nonce_len` and `src_len` (R73, R77) are the lengths of the lists. Also the
pseudo-commands of R87, which are abbreviations and no commands. -/

namespace Sys2Proof

/-- The six commands of 30_encoding.md R70. -/
inductive Instr where
  /-- `INIT` (R73, R140): requested round count, key bytes, nonce bytes. -/
  | init (rounds : Word) (key nonce : List Byte)
  /-- `GEN` (R74, R135). -/
  | gen
  /-- `SEEK` (R75, R145): a block index. -/
  | seek (n : BlockIndex)
  /-- `READ` (R76, R162): a byte count. -/
  | read (k : Word)
  /-- `XOR` (R77, R165): the host's destination length, source bytes. -/
  | xor (dstLen : Word) (src : List Byte)
  /-- `STAT` (R78, R148). -/
  | stat
  deriving DecidableEq, Repr

/-- The pseudo-commands of 30_encoding.md R87. -/
inductive Pseudo where
  /-- `REWIND`. -/
  | rewind
  /-- `SKIP k`. -/
  | skip (k : Word)
  /-- `SEEKBYTE b`, for a byte offset `b < 2^70`. -/
  | seekByte (b : BitVec 70)
  deriving DecidableEq, Repr

end Sys2Proof
end

