-- ==== Sys2Proof/Config.lean ====
section
/-! DEFINITION. What is fixed for the engine: the sizes of 00_scope.md R3, and the FREE VALUES, the
contents the spec calls unspecified (10_state.md R35, R36, R39; 93_implementation_defined.md U9 to
U11: "an option type or an opaque draw, never zero"). A free value is a constant with no body, so
no proof can use what it is. Log entries 1 to 5. -/

namespace Sys2Proof.Config

/-- Key bytes INIT uses (00_scope.md R3). -/
def keyBytes : Nat := 32

/-- Nonce bytes INIT uses (00_scope.md R3). -/
def nonceBytes : Nat := 8

/-- Bytes of a keystream block (00_scope.md R3). -/
def blockBytes : Nat := 64

/-- `KLEN_BITS`: width of the length fields of INIT (00_scope.md section 5, decision D5). -/
def klenBits : Nat := 16

/-- `LEN_BITS`: width of the count fields of READ and XOR (00_scope.md section 5, decision D5). -/
def lenBits : Nat := 32

/-- FREE VALUE: word `i` of `W` after draw `d` (a hardware reset). -/
opaque unspecifiedW (d i : Nat) : Word

/-- FREE VALUE: `ROUNDS` after draw `d` (a hardware reset). -/
opaque unspecifiedRounds (d : Nat) : Word

/-- FREE VALUE: byte `j` of `OUT` after draw `d` (a hardware reset, or a successful INIT). -/
opaque unspecifiedOut (d j : Nat) : Byte

/-- FREE VALUE: word `i` of `X` after draw `d` (a hardware reset, a successful INIT, or a block
transform). -/
opaque unspecifiedX (d i : Nat) : Word

end Sys2Proof.Config
end

