-- ==== Sys2Proof/WellFormed.lean ====
section
/-! DEFINITION. Which commands the encoding can express (30_encoding.md R73, R77): a byte string is
no longer than its length field can say. Fixed-width operands need no check. -/

namespace Sys2Proof

/-- The command's byte strings fit their length fields: 16 bits for INIT's key and nonce (R73), 32
bits for XOR's source (R77). -/
def Instr.wf : Instr → Bool
  | .init _ key nonce =>
      decide (key.length < 2 ^ Config.klenBits) && decide (nonce.length < 2 ^ Config.klenBits)
  | .gen => true
  | .seek _ => true
  | .read _ => true
  | .xor _ src => decide (src.length < 2 ^ Config.lenBits)
  | .stat => true

end Sys2Proof
end

