-- ==== Sys2Proof/Decode.lean ====
section
/-! DEFINITION. Decoding of command packets (30_encoding.md R71 to R79, R84, R85), total on any
bytes, then the encoder, the host's view of a table word, and the pseudo-commands (R87). -/

namespace Sys2Proof

open Machine

/-- Why a packet is not well-formed (30_encoding.md R79, R85). The engine answers all three alike. -/
inductive DecodeError where
  /-- "The empty packet (`len(cmd) = 0`) has no opcode" (R79). -/
  | emptyPacket
  /-- Opcodes 0x00 and 0x07 to 0xFF (R72, R85). -/
  | illegalOpcode (opcode : Byte)
  /-- `len(cmd)` does not match the opcode and the length fields (R79). -/
  | wrongLength
  deriving DecidableEq, Repr

/-- `INIT` packet (R73): offsets 1, 5, 7, 9, `9 + key_len`. -/
def decodeInit (cmd : Packet) : Except DecodeError Instr :=
  let keyLen := fieldAt cmd 5 2
  let nonceLen := fieldAt cmd 7 2
  if 9 ≤ cmd.length ∧ cmd.length = 9 + keyLen + nonceLen then
    .ok (.init (wordAt cmd 1) ((cmd.drop 9).take keyLen) ((cmd.drop (9 + keyLen)).take nonceLen))
  else .error .wrongLength

/-- `GEN` packet (R74). -/
def decodeGen (cmd : Packet) : Except DecodeError Instr :=
  if cmd.length = 1 then .ok .gen else .error .wrongLength

/-- `SEEK` packet (R75): `n_lo` at offset 1, `n_hi` at offset 5. -/
def decodeSeek (cmd : Packet) : Except DecodeError Instr :=
  if cmd.length = 9 then .ok (.seek (joinWords (wordAt cmd 1) (wordAt cmd 5)))
  else .error .wrongLength

/-- `READ` packet (R76): `k` at offset 1. -/
def decodeRead (cmd : Packet) : Except DecodeError Instr :=
  if cmd.length = 5 then .ok (.read (wordAt cmd 1)) else .error .wrongLength

/-- `XOR` packet (R77): `dst_len` at offset 1, `src_len` at offset 5, `src` at offset 9. -/
def decodeXor (cmd : Packet) : Except DecodeError Instr :=
  let srcLen := fieldAt cmd 5 4
  if 9 ≤ cmd.length ∧ cmd.length = 9 + srcLen then
    .ok (.xor (wordAt cmd 1) ((cmd.drop 9).take srcLen))
  else .error .wrongLength

/-- `STAT` packet (R78). -/
def decodeStat (cmd : Packet) : Except DecodeError Instr :=
  if cmd.length = 1 then .ok .stat else .error .wrongLength

/-- Byte 0 is the opcode (R72); then the packet's length is checked against it (R79). -/
def decode : Packet → Except DecodeError Instr
  | [] => .error .emptyPacket
  | opcode :: body =>
    if opcode = 0x01 then decodeInit (opcode :: body)
    else if opcode = 0x02 then decodeGen (opcode :: body)
    else if opcode = 0x03 then decodeSeek (opcode :: body)
    else if opcode = 0x04 then decodeRead (opcode :: body)
    else if opcode = 0x05 then decodeXor (opcode :: body)
    else if opcode = 0x06 then decodeStat (opcode :: body)
    else .error (.illegalOpcode opcode)

/-- The opcode byte of a command (R72). -/
def opcodeOf : Instr → Byte
  | .init _ _ _ => 0x01
  | .gen => 0x02
  | .seek _ => 0x03
  | .read _ => 0x04
  | .xor _ _ => 0x05
  | .stat => 0x06

/-- The packet's bytes after the opcode (R73 to R78). -/
def encodeBody : Instr → List Byte
  | .init rounds key nonce =>
      wordBytes rounds ++ leBytes 2 key.length ++ leBytes 2 nonce.length ++ key ++ nonce
  | .gen => []
  | .seek n => wordBytes (lowWord n) ++ wordBytes (highWord n)
  | .read k => wordBytes k
  | .xor dstLen src => wordBytes dstLen ++ leBytes 4 src.length ++ src
  | .stat => []

/-- The packet of a command. -/
def encode (i : Instr) : Packet :=
  opcodeOf i :: encodeBody i

/-- The total length R79 gives a packet whose bits are `v` (bit 0 the least significant bit of
byte 0, zeros above): by the opcode, and for INIT and XOR by the length fields. One byte for an
illegal opcode. -/
def tablePacketLength (v : Nat) : Nat :=
  let opcode := v % 256
  if opcode = 0x01 then 9 + v / 2 ^ 40 % 2 ^ 16 + v / 2 ^ 56 % 2 ^ 16
  else if opcode = 0x03 then 9
  else if opcode = 0x04 then 5
  else if opcode = 0x05 then 9 + v / 2 ^ 40 % 2 ^ 32
  else 1

/-- The packet whose bits are `w` below `nbits` and zero above, bit 0 the least significant bit of
byte 0, as long as its own opcode and length fields say (log entry 10). -/
def tablePacket (nbits w : Nat) : Packet :=
  let v := w % 2 ^ nbits
  leBytes (tablePacketLength v) v

/-- The command the decoder reads from a table word, none where it refuses. -/
def decodeTableWord (nbits w : Nat) : Option Instr :=
  match decode (tablePacket nbits w) with
  | .ok i => some i
  | .error _ => none

/-- The real commands a pseudo-command stands for (30_encoding.md R87). The data of a `SKIP`'s READ
is discarded by the host. -/
def expand : Pseudo → List Instr
  | .rewind => [.seek 0]
  | .skip k => [.read k]
  | .seekByte b => [.seek (b.extractLsb' 6 64), .read (BitVec.ofNat 32 (b.toNat % 64))]

end Sys2Proof
end

