-- ==== Sys2Proof/Machine/Datapath.lean ====
section
/-! DEFINITION. The ARX datapath (40_arx_datapath.md R100 to R115) and the keystream block as a pure
function (41_block_transform.md R131). None of these is a command. -/

namespace Sys2Proof.Machine

/-- `ADD32` (R100): the carry out of bit 31 is discarded. -/
def add32 (a b : Word) : Word :=
  a + b

/-- `XOR32` (R101). -/
def xor32 (a b : Word) : Word :=
  a ^^^ b

/-- `ROTL32` (R102). -/
def rotl32 (v : Word) (n : Nat) : Word :=
  v.rotateLeft n

/-- `XOR8` (R103). -/
def xor8 (a b : Byte) : Byte :=
  a ^^^ b

/-- Four words: the operands or results of a quarter round. -/
structure Quad where
  a : Word
  b : Word
  c : Word
  d : Word
  deriving DecidableEq, Repr

/-- `QR` (R104): four lines, each using the values the lines before it produced. -/
def qr (a b c d : Word) : Quad :=
  let a1 := add32 a b
  let d1 := rotl32 (xor32 d a1) 16
  let c1 := add32 c d1
  let b1 := rotl32 (xor32 b c1) 12
  let a2 := add32 a1 b1
  let d2 := rotl32 (xor32 d1 a2) 8
  let c2 := add32 c1 d2
  let b2 := rotl32 (xor32 b1 c2) 7
  ⟨a2, b2, c2, d2⟩

/-- `QRX` (R106): all four words are read before any is written. -/
def qrx (x : Words) (ia ib ic id : Fin 16) : Words :=
  let q := qr x[ia] x[ib] x[ic] x[id]
  (((x.set ia q.a).set ib q.b).set ic q.c).set id q.d

/-- `COLROUND` (R108). -/
def colRound (x : Words) : Words :=
  qrx (qrx (qrx (qrx x 0 4 8 12) 1 5 9 13) 2 6 10 14) 3 7 11 15

/-- `DIAGROUND` (R109). -/
def diagRound (x : Words) : Words :=
  qrx (qrx (qrx (qrx x 0 5 10 15) 1 6 11 12) 2 7 8 13) 3 4 9 14

/-- `DOUBLEROUND` (R110): the column round comes first. -/
def doubleRound (x : Words) : Words :=
  diagRound (colRound x)

/-- `DOUBLEROUND` applied `n` times in succession. -/
def doubleRounds : Nat → Words → Words
  | 0, x => x
  | n + 1, x => doubleRounds n (doubleRound x)

/-- `PERMUTE` (R111): `rounds / 2` double rounds. -/
def permute (x : Words) (rounds : Word) : Words :=
  doubleRounds (rounds.toNat / 2) x

/-- Round number `t` of the round loop (41_block_transform.md R133): column if `t` is even, diagonal
if odd. -/
def roundAt (x : Words) (t : Nat) : Words :=
  if t % 2 = 0 then colRound x else diagRound x

/-- `FEEDFWD` (R113): word by word addition. -/
def feedForward (x w : Words) : Words :=
  Vector.ofFn fun i : Fin 16 => add32 x[i] w[i]

/-- `SERIALIZE` (R114; 20_memory.md R51): byte `j` is bits `8*(j mod 4) + 7` down to `8*(j mod 4)` of
word `j / 4`. -/
def serialize (y : Words) : Block :=
  Vector.ofFn fun j : Fin 64 => (y[j.val / 4]'(by omega)).extractLsb' (8 * (j.val % 4)) 8

/-- `CTR = {W[13], W[12]}` (10_state.md R24). -/
def counter (w : Words) : BlockIndex :=
  joinWords w[12] w[13]

/-- `W[12] <- n[31:0]; W[13] <- n[63:32]` (20_memory.md R53). -/
def setCounter (w : Words) (n : BlockIndex) : Words :=
  (w.set 12 (lowWord n)).set 13 (highWord n)

/-- The largest counter value, `2^64 - 1`. -/
def counterMax : BlockIndex :=
  0xFFFFFFFFFFFFFFFF

/-- `CTRINC` (R115), the new words. -/
def ctrInc (w : Words) : Words :=
  setCounter w (counter w + 1)

/-- `CTRINC` (R115), its result `wrap`: the carry out of the 64-bit addition. -/
def ctrWraps (w : Words) : Bool :=
  counter w == counterMax

/-- Steps 1 to 5 of the block transform (41_block_transform.md R130) as a function: copy, permute,
add the original words, serialise. The block of the counter value in `w`. -/
def blockOf (w : Words) (rounds : Word) : Block :=
  serialize (feedForward (permute w rounds) w)

/-- `SIGMA[0]` (10_state.md R22). -/
def sigma0 : Word := 0x61707865

/-- `SIGMA[1]` (10_state.md R22). -/
def sigma1 : Word := 0x3320646e

/-- `SIGMA[2]` (10_state.md R22). -/
def sigma2 : Word := 0x79622d32

/-- `SIGMA[3]` (10_state.md R22). -/
def sigma3 : Word := 0x6b206574

/-- The sixteen words of an instance at block index `n` (10_state.md R22 to R25; `S` of
41_block_transform.md R131): constants, key, counter, nonce. -/
def instanceWords (key nonce : List Byte) (n : BlockIndex) : Words :=
  #v[sigma0, sigma1, sigma2, sigma3,
     wordAt key 0, wordAt key 4, wordAt key 8, wordAt key 12,
     wordAt key 16, wordAt key 20, wordAt key 24, wordAt key 28,
     lowWord n, highWord n, wordAt nonce 0, wordAt nonce 4]

/-- `KSBLOCK(key, nonce, rounds, n)` (41_block_transform.md R131). -/
def ksBlock (key nonce : List Byte) (rounds : Word) (n : BlockIndex) : Block :=
  blockOf (instanceWords key nonce n) rounds

/-- Byte `q` of the whole keystream (43_stream_ops.md R163) of an instance whose words are `w`, up to the
counter: byte `q mod 64` of block `q / 64`. -/
def keystreamByte (w : Words) (rounds : Word) (q : Nat) : Byte :=
  (blockOf (setCounter w (BitVec.ofNat 64 (q / 64))) rounds)[q % 64]'(by omega)

end Sys2Proof.Machine
end

