-- ==== Sys2Proof/Machine/State.lean ====
section
/-! DEFINITION. The state of one engine (10_state.md R20) with its command port (30_encoding.md R71;
70_reset_and_hazards.md R210), the reasons a step can stop, and the state after reset (R39). -/

namespace Sys2Proof.Machine

/-- What arrives at the engine from outside: a command packet (30_encoding.md R71), or a hardware
reset, "an input event of the engine, outside the command stream" (70_reset_and_hazards.md R210). -/
inductive PortEvent where
  /-- A command packet, delivered whole. -/
  | packet (cmd : Packet)
  /-- A hardware reset; `inFlight` is the command it cuts short, if one was executing (R210; 93 U14;
  log entry 14). -/
  | reset (inFlight : Option Packet)
  deriving DecidableEq, Repr

/-- The complete state of one engine: 10_state.md R20, the port, and the model's own draw counter. -/
structure State where
  /-- `W[0..15]` (R21): constants, key, block counter, nonce. -/
  w : Words
  /-- `ROUNDS` (R33). -/
  rounds : Word
  /-- `OUT[0..63]` (R35). -/
  out : Block
  /-- `CUR` (R34): "7 bits, values 0..64"; 65 to 127 are never reached (log entry 11). -/
  cur : Fin 65
  /-- `EXH` (R30): the counter has wrapped. -/
  exh : Bool
  /-- `INITD` (R31): a construction has succeeded since reset. -/
  initd : Bool
  /-- `ABRT` (R32): an XOR command aborted on exhaustion. -/
  abrt : Bool
  /-- `X[0..15]` (R36): hidden scratch of the block transform. -/
  x : Words
  /-- Port events not yet taken, oldest first (log entry 6). -/
  inbox : List PortEvent
  /-- Responses sent, oldest first (log entry 6). -/
  responses : List Packet
  /-- The MODEL's own counter: index of the next draw of free values (log entry 5). -/
  draws : Nat
  deriving DecidableEq, Repr

/-- Faults: none. Every abnormal condition of this engine is a status byte in a response
(60_exceptions.md R180, R189) and "the engine cannot hang" (70_reset_and_hazards.md R221), so no step
stops with a fault (log entry 13). -/
inductive Fault where
  deriving DecidableEq, Repr

/-- Refusals. -/
inductive Refusal where
  /-- Raised only by an arm of `exec` for a command that has no meaning yet; there is no such arm.
  Safe: the run stops. -/
  | notModelled (mnemonic : String)
  deriving DecidableEq, Repr

/-- `W` with unspecified contents, of draw `d` (R39; log entries 1, 2). -/
def State.unspecifiedW (d : Nat) : Words :=
  Vector.ofFn fun i => Config.unspecifiedW d i.val

/-- `OUT` with unspecified contents, of draw `d` (R35, R39; log entries 1 to 3). -/
def State.unspecifiedOut (d : Nat) : Block :=
  Vector.ofFn fun j => Config.unspecifiedOut d j.val

/-- `X` with unspecified contents, of draw `d` (R36, R39; log entries 1 to 4). -/
def State.unspecifiedX (d : Nat) : Words :=
  Vector.ofFn fun i => Config.unspecifiedX d i.val

/-- The state after hardware reset (R39): `INITD = 0`, `ABRT = 0`, `EXH = 0`, `CUR = 64`; `W`, `ROUNDS`,
`OUT` and `X` unspecified, draw 0 (log entry 1). Nothing has arrived and nothing has been sent. -/
def State.reset : State where
  w := State.unspecifiedW 0
  rounds := Config.unspecifiedRounds 0
  out := State.unspecifiedOut 0
  cur := 64
  exh := false
  initd := false
  abrt := false
  x := State.unspecifiedX 0
  inbox := []
  responses := []
  draws := 1

end Sys2Proof.Machine
end

