-- ==== Sys2Proof/Machine/Flags.lean ====
section
/-! DEFINITION. What is computed from the flags (10_state.md R30 to R32): the STAT flags byte, the
operating states, the stream position and the bytes left. There are no arithmetic flags. -/

namespace Sys2Proof.Machine

/-- STAT's flags byte (30_encoding.md R83; 42_init_seek_stat.md R148): `INITD + 2*EXH + 4*ABRT`. -/
def statFlags (s : State) : Byte :=
  BitVec.ofNat 8 (s.initd.toNat + 2 * s.exh.toNat + 4 * s.abrt.toNat)

/-- The five operating states (10_state.md section 8; 60_exceptions.md R193). -/
inductive OpState where
  | uninit
  | ready
  | last
  | dry
  | aborted
  deriving DecidableEq, Repr

/-- The operating state, a function of the flags and `CUR` (10_state.md section 8). -/
def opState (s : State) : OpState :=
  if s.abrt then .aborted
  else if !s.initd then .uninit
  else if !s.exh then .ready
  else if s.cur.val < 64 then .last
  else .dry

/-- Bytes still available (70_reset_and_hazards.md R218). -/
def bytesLeft (s : State) : Nat :=
  if s.exh then 64 - s.cur.val
  else (64 - s.cur.val) + 64 * (2 ^ 64 - (counter s.w).toNat)

/-- The position on the un-wrapped stream of `2^70` bytes (10_state.md R27; 43_stream_ops.md R163):
`2^70` in state DRY. -/
def streamPos (s : State) : Nat :=
  2 ^ 70 - bytesLeft s

end Sys2Proof.Machine
end

