-- ==== Sys2Proof/Machine/Ops.lean ====
section
/-! DEFINITION. The operations the commands share: responding, raising an error (60_exceptions.md
R181, R189), the common checks (R188), the output buffer (00_scope.md R6), the block transform
(41_block_transform.md R130), the byte drain (43_stream_ops.md R160), hardware reset
(70_reset_and_hazards.md R210), taking an event from the port. -/

namespace Sys2Proof.Machine

/-- The error kinds (60_exceptions.md R181). -/
inductive ErrorKind where
  /-- INIT, `key_len < 32`. -/
  | invalidKeyLength
  /-- INIT, `nonce_len < 8`. -/
  | invalidNonceLength
  /-- XOR, `dst_len != src_len`. -/
  | lengthMismatch
  /-- GEN or XOR, a block needed while `EXH = 1`. -/
  | keystreamExhausted
  /-- INIT, `rounds` zero or odd. -/
  | invalidRounds
  /-- GEN, SEEK, READ, XOR while `INITD = 0`. -/
  | notInitialised
  /-- INIT, GEN, SEEK, READ, XOR while `ABRT = 1`. -/
  | aborted
  /-- A packet that is not well-formed. -/
  | illegalCommand
  deriving DecidableEq, Repr

/-- The error codes (60_exceptions.md R181). -/
def ErrorKind.code : ErrorKind → Nat
  | .invalidKeyLength => 1
  | .invalidNonceLength => 2
  | .lengthMismatch => 3
  | .keystreamExhausted => 4
  | .invalidRounds => 5
  | .notInitialised => 6
  | .aborted => 7
  | .illegalCommand => 8

/-- "The status byte of an error response is `0x80 + code`" (60_exceptions.md R181). -/
def ErrorKind.status (k : ErrorKind) : Byte :=
  BitVec.ofNat 8 (0x80 + k.code)

/-- Status `OK` (30_encoding.md R80). -/
def statusOk : Byte := 0x00

/-- Status `EOS`, end-of-stream (30_encoding.md R80). -/
def statusEos : Byte := 0x01

/-- Sends one response packet (30_encoding.md R71). -/
def respond (rsp : Packet) (s : State) : State :=
  { s with responses := s.responses ++ [rsp] }

/-- Raises an error (60_exceptions.md R189): the command stops and the one-byte response is sent. The
state changes of the one kind that has any (the XOR abort) are made by the command before. There is
no handler, nothing is saved, and there is no return (R191). -/
def raise (k : ErrorKind) (s : State) : State :=
  respond [k.status] s

/-- The response to READ and XOR (30_encoding.md R82): status, count, data. -/
def dataResponse (status : Byte) (data : List Byte) : Packet :=
  status :: (leBytes 4 data.length ++ data)

/-- Steps 3 to 5 of the common checks (60_exceptions.md R188): `Aborted` first, then, for every command
but INIT, `NotInitialised`. Step 1 is the decoder's; STAT (step 2) makes no check. -/
def commonCheck (needsInstance : Bool) (s : State) : Option ErrorKind :=
  if s.abrt then some .aborted
  else if needsInstance && !s.initd then some .notInitialised
  else none

/-- `MemRead(a, 1)` of the output buffer (00_scope.md R6). -/
def memRead (s : State) (a : Fin 64) : Byte :=
  s.out[a]

/-- Steps 1 to 7 of the block transform (41_block_transform.md R130): `MemWrite(0, 64, ...)` fills `OUT`
with the block of the counter at entry (20_memory.md R63), the counter is incremented, `EXH` set if it
wrapped, and `CUR` cleared. `X` is left unspecified (10_state.md R36, R134; log entry 4). -/
def generate (s : State) : State :=
  { s with
    out := blockOf s.w s.rounds
    w := ctrInc s.w
    exh := s.exh || ctrWraps s.w
    cur := 0
    x := State.unspecifiedX s.draws
    draws := s.draws + 1 }

/-- `BLOCK` (41_block_transform.md R130): none is `fail`, with no state change. -/
def block (s : State) : Option State :=
  if s.exh then none else some (generate s)

/-- Serves byte `a` of `OUT` and leaves `CUR = a + 1` (43_stream_ops.md R160, R171). -/
def serveByte (a : Fin 64) (s : State) : Byte × State :=
  (memRead s a, { s with cur := ⟨a.val + 1, by omega⟩ })

/-- `NEXTBYTE` (43_stream_ops.md R160): none is `dry`. While `CUR < 64` the byte at `CUR` is served and
`EXH` is not consulted; at `CUR = 64` the block transform runs first and the address is 0 (R171). -/
def nextByte (s : State) : Option (Byte × State) :=
  if h : s.cur.val < 64 then some (serveByte ⟨s.cur.val, h⟩ s)
  else
    match block s with
    | none => none
    | some s' => some (serveByte 0 s')

/-- What the byte loop of READ and XOR leaves: the bytes served, whether a `NEXTBYTE` returned `dry`, and
the state. -/
structure Drained where
  data : List Byte
  dry : Bool
  state : State
  deriving DecidableEq, Repr

/-- The byte loop of READ and XOR (43_stream_ops.md R162, R165): `NEXTBYTE` up to `n` times, left early
only on `dry`. -/
def drain : Nat → State → Drained
  | 0, s => ⟨[], false, s⟩
  | n + 1, s =>
    match nextByte s with
    | none => ⟨[], true, s⟩
    | some (b, s') =>
      let rest := drain n s'
      ⟨b :: rest.data, rest.dry, rest.state⟩

/-- INIT's own checks, in their order (42_init_seek_stat.md R141, R142; 60_exceptions.md R188): key
length, nonce length, round count. -/
def initCheck (rounds : Word) (key nonce : List Byte) : Option ErrorKind :=
  if key.length < Config.keyBytes then some .invalidKeyLength
  else if nonce.length < Config.nonceBytes then some .invalidNonceLength
  else if rounds = 0 ∨ rounds.toNat % 2 = 1 then some .invalidRounds
  else none

/-- The assignments of a successful INIT (42_init_seek_stat.md R140). `OUT` and `X` hold no value
afterwards (10_state.md section 9; log entry 3). -/
def construct (rounds : Word) (key nonce : List Byte) (s : State) : State :=
  { s with
    w := instanceWords key nonce 0
    rounds := rounds
    out := State.unspecifiedOut s.draws
    cur := 64
    exh := false
    initd := true
    x := State.unspecifiedX s.draws
    draws := s.draws + 1 }

/-- The first three assignments of SEEK (42_init_seek_stat.md R145): the counter words, and `EXH <- 0`. -/
def seekTo (n : BlockIndex) (s : State) : State :=
  { s with w := setCounter s.w n, exh := false }

/-- `ABRT <- 1` (43_stream_ops.md R166). -/
def latchAbort (s : State) : State :=
  { s with abrt := true }

/-- Hardware reset (70_reset_and_hazards.md R210; 10_state.md R39), whatever was executing: the flags
and `CUR` as given, `W`, `ROUNDS`, `OUT`, `X` unspecified (log entry 2). No response is sent; what has
been sent and what has not yet been taken stay (log entry 8). -/
def hardwareReset (s : State) : State where
  w := State.unspecifiedW s.draws
  rounds := Config.unspecifiedRounds s.draws
  out := State.unspecifiedOut s.draws
  cur := 64
  exh := false
  initd := false
  abrt := false
  x := State.unspecifiedX s.draws
  inbox := s.inbox
  responses := s.responses
  draws := s.draws + 1

/-- The engine's answer to a packet that is not well-formed (30_encoding.md R85): `IllegalCommand`, no
state change, whatever the flags are. -/
def rejectPacket (s : State) : State :=
  raise .illegalCommand s

/-- Waiting for a command: "all state survives the wait" (60_exceptions.md section 9; log entry 7). -/
def wait (s : State) : State :=
  s

/-- Takes the oldest event from the port (20_memory.md R59), none while nothing is pending. -/
def takeEvent (s : State) : Option (PortEvent × State) :=
  match s.inbox with
  | [] => none
  | e :: rest => some (e, { s with inbox := rest })

end Sys2Proof.Machine
end

