-- ==== Sys2Proof/Machine/BlockOps.lean ====
section
/-! DEFINITION. The command GEN (41_block_transform.md R135). -/

namespace Sys2Proof.Machine

/-- `GEN` (R135): one block transform; its failure is `KeystreamExhausted` with no state change, and does
not set `ABRT`. -/
def execGen (s : State) : Host.Outcome State Fault Refusal :=
  match commonCheck true s with
  | some k => .next (raise k s)
  | none =>
    match block s with
    | none => .next (raise .keystreamExhausted s)
    | some s' => .next (respond [statusOk] s')

end Sys2Proof.Machine
end

