-- ==== Sys2Proof/Machine/InitSeekStat.lean ====
section
/-! DEFINITION. The commands INIT, SEEK and STAT (42_init_seek_stat.md R140 to R148). -/

namespace Sys2Proof.Machine

/-- `INIT` (R140 to R144): not exempt from `Aborted`; a failed INIT changes nothing (R143); a successful
one replaces the instance whole (R144). -/
def execInit (rounds : Word) (key nonce : List Byte) (s : State) :
    Host.Outcome State Fault Refusal :=
  match commonCheck false s with
  | some k => .next (raise k s)
  | none =>
    match initCheck rounds key nonce with
    | some k => .next (raise k s)
    | none => .next (respond [statusOk] (construct rounds key nonce s))

/-- `SEEK` (R145, R146): `EXH` has just been cleared, so its block transform cannot fail. -/
def execSeek (n : BlockIndex) (s : State) : Host.Outcome State Fault Refusal :=
  match commonCheck true s with
  | some k => .next (raise k s)
  | none => .next (respond [statusOk] (generate (seekTo n s)))

/-- STAT's response (30_encoding.md R83): status, flags, `CUR`, `ROUNDS`, `W[12]`, `W[13]`, the last three
forced to zero while `INITD = 0`. -/
def statResponse (s : State) : Packet :=
  let masked (v : Word) : Word := if s.initd then v else 0
  [statusOk, statFlags s, BitVec.ofNat 8 s.cur.val]
    ++ wordBytes (masked s.rounds) ++ wordBytes (masked s.w[12]) ++ wordBytes (masked s.w[13])

/-- `STAT` (R148): answers in every state, changes nothing. -/
def execStat (s : State) : Host.Outcome State Fault Refusal :=
  .next (respond (statResponse s) s)

end Sys2Proof.Machine
end

