-- ==== Sys2Proof/Machine/StreamOps.lean ====
section
/-! DEFINITION. The commands READ and XOR (43_stream_ops.md R162 to R169). -/

namespace Sys2Proof.Machine

/-- `READ` (R162, R164): `EOS` exactly when a `NEXTBYTE` returned `dry`; the bytes served are delivered
either way. -/
def execRead (k : Word) (s : State) : Host.Outcome State Fault Refusal :=
  match commonCheck true s with
  | some e => .next (raise e s)
  | none =>
    let d := drain k.toNat s
    .next (respond (dataResponse (if d.dry then statusEos else statusOk) d.data) d.state)

/-- `XOR` (R165): `LengthMismatch` before any byte is consumed (R167); `dry` latches `ABRT` and sends the
status alone (R166). -/
def execXor (dstLen : Word) (src : List Byte) (s : State) : Host.Outcome State Fault Refusal :=
  match commonCheck true s with
  | some e => .next (raise e s)
  | none =>
    if dstLen.toNat ≠ src.length then .next (raise .lengthMismatch s)
    else
      let d := drain src.length s
      if d.dry then .next (raise .keystreamExhausted (latchAbort d.state))
      else .next (respond (dataResponse statusOk (List.zipWith xor8 src d.data)) d.state)

end Sys2Proof.Machine
end

