-- ==== Sys2Proof/Machine/Dispatch.lean ====
section
/-! DEFINITION. From a command to its meaning (30_encoding.md R70): one arm per constructor. -/

namespace Sys2Proof.Machine

def exec (i : Instr) (s : State) : Host.Outcome State Fault Refusal :=
  match i with
  | .init rounds key nonce => Sys2Proof.Machine.execInit rounds key nonce s
  | .gen => Sys2Proof.Machine.execGen s
  | .seek n => Sys2Proof.Machine.execSeek n s
  | .read k => Sys2Proof.Machine.execRead k s
  | .xor dstLen src => Sys2Proof.Machine.execXor dstLen src s
  | .stat => Sys2Proof.Machine.execStat s

end Sys2Proof.Machine
end

