-- ==== Sys2Proof/Machine/Step.lean ====
section
/-! DEFINITION. One step of the engine: it takes the oldest event from its port and handles it to
completion (20_memory.md R57, R59), or waits. -/

namespace Sys2Proof.Machine

/-- One step. A packet that decodes is executed; one that does not is answered `IllegalCommand` before
anything else is looked at (30_encoding.md R85; 60_exceptions.md R188). A reset event resets the
engine and abandons the command it cut short, if any (70_reset_and_hazards.md R210). While nothing is
pending the engine waits, "and all state survives the wait" (60_exceptions.md section 9; log entry 7). -/
def step (s : State) : Host.Outcome State Fault Refusal :=
  match takeEvent s with
  | none => .next (wait s)
  | some (.packet cmd, s') =>
    match decode cmd with
    | .ok i => exec i s'
    | .error _ => .next (rejectPacket s')
  | some (.reset _, s') => .next (hardwareReset s')

/-- `s` with the packet of a table word delivered at the head of the port, so that the very next step
executes it (log entry 9). -/
def State.withFetchWord (s : State) (nbits w : Nat) : State :=
  { s with inbox := .packet (tablePacket nbits w) :: s.inbox }

end Sys2Proof.Machine
end

