-- ==== Sys2Proof/Machine/Assembler.lean ====
section
/-! DEFINITION. The textual command syntax of 30_encoding.md R86 and the pseudo-commands of R87, read
into commands. It is the spec's notation for its examples, no part of the engine; where R86 leaves
spacing open see log entry 15. -/

namespace Sys2Proof.Machine

/-- The value of a hexadecimal digit. -/
def hexDigit (c : Char) : Option Nat :=
  let v := c.toNat
  if 48 ≤ v ∧ v ≤ 57 then some (v - 48)
  else if 97 ≤ v ∧ v ≤ 102 then some (v - 87)
  else if 65 ≤ v ∧ v ≤ 70 then some (v - 55)
  else none

/-- Digits in a base, most significant first, onto an accumulator. -/
def digits (base : Nat) : List Char → Nat → Option Nat
  | [], acc => some acc
  | c :: cs, acc =>
    match hexDigit c with
    | none => none
    | some d => if d < base then digits base cs (base * acc + d) else none

/-- "Numbers are decimal or `0x` hexadecimal" (R86). -/
def number : List Char → Option Nat
  | [] => none
  | '0' :: 'x' :: [] => none
  | '0' :: 'x' :: c :: cs => digits 16 (c :: cs) 0
  | c :: cs => digits 10 (c :: cs) 0

/-- A number below a bound. -/
def numberBelow (bound : Nat) (t : List Char) : Option Nat :=
  match number t with
  | none => none
  | some n => if n < bound then some n else none

/-- A byte string: two hexadecimal digits a byte, first byte first (00_scope.md R6). -/
def hexBytes : List Char → Option (List Byte)
  | [] => some []
  | [_] => none
  | a :: b :: cs =>
    match hexDigit a, hexDigit b, hexBytes cs with
    | some x, some y, some bs => some (BitVec.ofNat 8 (16 * x + y) :: bs)
    | _, _, _ => none

/-- The byte string after a label such as `key=`. -/
def labelled (label t : List Char) : Option (List Byte) :=
  if t.take label.length = label then hexBytes (t.drop label.length) else none

/-- A line cut at spaces and commas. -/
def tokens (line : List Char) : List (List Char) :=
  (line.foldr (fun c acc =>
    if c = ' ' ∨ c = ',' then [] :: acc
    else
      match acc with
      | [] => [[c]]
      | t :: ts => (c :: t) :: ts) [[]]).filter (fun t => !t.isEmpty)

/-- The command, if the encoding can express it. -/
def checked (i : Instr) : Option (List Instr) :=
  if i.wf then some [i] else none

/-- A pseudo-command with one number, expanded. -/
def withNumber (bound : Nat) (t : List Char) (f : Nat → List Instr) : Option (List Instr) :=
  match numberBelow bound t with
  | none => none
  | some n => some (f n)

/-- One line of R86 or R87 as the commands it stands for, none if it is no such line. -/
def assemble (line : List Char) : Option (List Instr) :=
  match tokens line with
  | [['I', 'N', 'I', 'T'], r, k, n] =>
    match numberBelow (2 ^ 32) r, labelled ['k', 'e', 'y', '='] k,
        labelled ['n', 'o', 'n', 'c', 'e', '='] n with
    | some rounds, some key, some nonce => checked (.init (BitVec.ofNat 32 rounds) key nonce)
    | _, _, _ => none
  | [['G', 'E', 'N']] => some [.gen]
  | [['S', 'E', 'E', 'K'], n] => withNumber (2 ^ 64) n fun v => [.seek (BitVec.ofNat 64 v)]
  | [['R', 'E', 'A', 'D'], k] => withNumber (2 ^ 32) k fun v => [.read (BitVec.ofNat 32 v)]
  | [['X', 'O', 'R'], d, s] =>
    match numberBelow (2 ^ 32) d, labelled ['s', 'r', 'c', '='] s with
    | some dstLen, some src => checked (.xor (BitVec.ofNat 32 dstLen) src)
    | _, _ => none
  | [['X', 'O', 'R'], s] =>
    match labelled ['s', 'r', 'c', '='] s with
    | some src => checked (.xor (BitVec.ofNat 32 src.length) src)
    | none => none
  | [['S', 'T', 'A', 'T']] => some [.stat]
  | [['R', 'E', 'W', 'I', 'N', 'D']] => some (expand .rewind)
  | [['S', 'K', 'I', 'P'], k] => withNumber (2 ^ 32) k fun v => expand (.skip (BitVec.ofNat 32 v))
  | [['S', 'E', 'E', 'K', 'B', 'Y', 'T', 'E'], b] =>
    withNumber (2 ^ 70) b fun v => expand (.seekByte (BitVec.ofNat 70 v))
  | _ => none

end Sys2Proof.Machine
end

