-- ==== Sys2Proof/Safety.lean ====
section
/-! DEFINITION. What claims are stated in: the invariants of 10_state.md R37, which registers hold an
instance, what the host can tell apart, and how the operating states may change. -/

namespace Sys2Proof.Machine

/-- The instance invariants of 10_state.md R37, items 3 to 8, with one clause more that the same rules
give (an un-exhausted engine with unread bytes has generated a block, so its counter is not zero).
Item 1 is the type of `cur`; item 2 is a property of `block`. -/
structure State.Inv (s : State) : Prop where
  /-- Item 3: `W[0..3]` are the constants. -/
  sigma : s.initd = true → s.w[0] = sigma0 ∧ s.w[1] = sigma1 ∧ s.w[2] = sigma2 ∧ s.w[3] = sigma3
  /-- Item 4: `OUT` is the block before the counter. -/
  outIsBlock : s.initd = true → s.cur.val < 64 →
    s.out = blockOf (setCounter s.w (counter s.w - 1)) s.rounds
  /-- Unread bytes of an un-exhausted engine: the counter has moved on from zero. -/
  counterMoved : s.initd = true → s.cur.val < 64 → s.exh = false → counter s.w ≠ 0
  /-- Item 5. -/
  exhCounter : s.exh = true → counter s.w = 0
  /-- Item 6. -/
  uninit : s.initd = false → s.cur.val = 64 ∧ s.exh = false ∧ s.abrt = false
  /-- Item 7. -/
  roundsEven : s.initd = true → s.rounds ≠ 0 ∧ s.rounds.toNat % 2 = 0
  /-- Item 8. -/
  abortedDry : s.abrt = true → s.exh = true ∧ s.cur.val = 64

/-- The engine holds the instance last constructed from `key`, `nonce` and `rounds`, at whatever block
index its counter names (41_block_transform.md R131). -/
structure State.Holds (key nonce : List Byte) (rounds : Word) (s : State) : Prop where
  initd : s.initd = true
  words : s.w = instanceWords key nonce (counter s.w)
  rounds : s.rounds = rounds

/-- Two engines that will answer alike: the same pending port events, flags and cursor; the same `W` and
`ROUNDS` once an instance exists (10_state.md R31); the same `OUT` while it has unread bytes (R35). `X`,
`draws`, the responses already sent, and contents that "hold no value" may differ. -/
structure State.Alike (s t : State) : Prop where
  inbox : s.inbox = t.inbox
  initd : s.initd = t.initd
  exh : s.exh = t.exh
  abrt : s.abrt = t.abrt
  cur : s.cur = t.cur
  w : s.initd = true → s.w = t.w
  rounds : s.initd = true → s.rounds = t.rounds
  out : s.initd = true → s.cur.val < 64 → s.out = t.out

/-- `t` has every register of 10_state.md R20 as `s` has it: "no state change" (60_exceptions.md R190). Only
the port (and nothing else) may differ. -/
structure State.SameRegisters (s t : State) : Prop where
  w : t.w = s.w
  rounds : t.rounds = s.rounds
  out : t.out = s.out
  cur : t.cur = s.cur
  exh : t.exh = s.exh
  initd : t.initd = s.initd
  abrt : t.abrt = s.abrt
  x : t.x = s.x

/-- The words that only INIT writes (10_state.md R26): `W[0..11]`, `W[14..15]`. -/
def sameInstanceWords (s t : State) : Prop :=
  ∀ i : Fin 16, i ≠ 12 → i ≠ 13 → t.w[i] = s.w[i]

/-- The operating states in which a command may leave the engine (60_exceptions.md R194, R195), by the
state it finds. -/
def OpState.after : Instr → OpState → List OpState
  | .init _ _ _, .uninit => [.uninit, .ready]
  | .init _ _ _, .ready => [.ready]
  | .init _ _ _, .last => [.last, .ready]
  | .init _ _ _, .dry => [.dry, .ready]
  | .gen, .ready => [.ready, .last]
  | .seek _, .ready => [.ready, .last]
  | .seek _, .last => [.ready, .last]
  | .seek _, .dry => [.ready, .last]
  | .read _, .ready => [.ready, .last, .dry]
  | .read _, .last => [.last, .dry]
  | .xor _ _, .ready => [.ready, .last, .dry, .aborted]
  | .xor _ _, .last => [.last, .dry, .aborted]
  | .xor _ _, .dry => [.dry, .aborted]
  | _, o => [o]

/-- Byte `i` of a packet as a number, for packets that have one. -/
def byteAt (cmd : Packet) (i : Nat) : Nat :=
  (cmd.getD i 0).toNat

/-- The table of 30_encoding.md R79, row by row. -/
def packetWellFormed (cmd : Packet) : Prop :=
  (cmd.head? = some 0x01 ∧ 9 ≤ cmd.length ∧
    cmd.length = 9 + (byteAt cmd 5 + 2 ^ 8 * byteAt cmd 6) + (byteAt cmd 7 + 2 ^ 8 * byteAt cmd 8)) ∨
  (cmd.head? = some 0x02 ∧ cmd.length = 1) ∨
  (cmd.head? = some 0x03 ∧ cmd.length = 9) ∨
  (cmd.head? = some 0x04 ∧ cmd.length = 5) ∨
  (cmd.head? = some 0x05 ∧ 9 ≤ cmd.length ∧
    cmd.length = 9 + (byteAt cmd 5 + 2 ^ 8 * byteAt cmd 6 + 2 ^ 16 * byteAt cmd 7
      + 2 ^ 24 * byteAt cmd 8)) ∨
  (cmd.head? = some 0x06 ∧ cmd.length = 1)

/-- The forms a response may have (30_encoding.md R80 to R83): a status byte alone, `OK` or an error with
code 1 to 8; a status `OK` or `EOS` with a count and that many data bytes; STAT's fifteen bytes. -/
def responseLegal (rsp : Packet) : Prop :=
  rsp = [0x00] ∨
  (∃ e : Byte, rsp = [e] ∧ 0x81 ≤ e.toNat ∧ e.toNat ≤ 0x88) ∨
  (∃ (st : Byte) (data : List Byte), (st = 0x00 ∨ st = 0x01) ∧ rsp = st :: (leBytes 4 data.length ++ data)) ∨
  (∃ (flags cur : Byte) (rest : List Byte), flags.toNat < 8 ∧ cur.toNat ≤ 64 ∧ rest.length = 12 ∧
    rsp = 0x00 :: flags :: cur :: rest)

end Sys2Proof.Machine
end

