-- ==== Sys2Proof/Certificates/Slice0/Obligations.lean ====
section
/-! DEFINITION. The statements for the provers (OBLIGATIONS.json lists them): encodings, the datapath, the
block transform, each command's answers and frame, errors, reset, and the whole-machine rules. No
statement rests on the value of a free value or of `draws`. Where one compares free values drawn on two paths,
which the spec leaves unspecified, its docstring names the log entries. -/

open Sys2Proof Sys2Proof.Machine Host

/-! ### Encodings (30_encoding.md) -/

/-- Every well-formed command is read back from its packet, every operand at every value. -/
def Obligations.DecodeOfEncodeIsIdentity : Prop :=
  ∀ i : Instr, i.wf = true → decode (encode i) = .ok i

/-- A packet that decodes is the packet of the command it decodes to, which is well-formed: every bit of
every field is significant (R85), and a packet has one reading. -/
def Obligations.EncodeOfDecodeIsIdentity : Prop :=
  ∀ (cmd : Packet) (i : Instr), decode cmd = .ok i → i.wf = true ∧ encode i = cmd

/-- R79: the packets that decode are exactly those of the table, and any other, alone or in front of
others, in any state, is answered `IllegalCommand` and changes nothing else. -/
def Obligations.PacketsDecodeExactlyWhenWellFormed : Prop :=
  ∀ cmd : Packet,
    ((∃ i, decode cmd = .ok i) ↔ packetWellFormed cmd) ∧
    ∀ (s : State) (rest : List PortEvent), s.inbox = .packet cmd :: rest → ¬packetWellFormed cmd →
      ∃ t, step s = .next t ∧ s.SameRegisters t ∧ t.inbox = rest ∧
        t.responses = s.responses ++ [[0x88]]

/-- R74, R75, R76, R78: the packets of fixed length, for all bytes, and that no other packet decodes to these commands. -/
def Obligations.FixedLengthPacketsDecode : Prop :=
  decode [0x02] = .ok .gen ∧ decode [0x06] = .ok .stat ∧
  (∀ b0 b1 b2 b3 : Byte, ∃ k : Word, decode [0x04, b0, b1, b2, b3] = .ok (.read k) ∧
    k.toNat = b0.toNat + 2 ^ 8 * b1.toNat + 2 ^ 16 * b2.toNat + 2 ^ 24 * b3.toNat) ∧
  (∀ cmd : Packet, (decode cmd = .ok .gen → cmd = [0x02]) ∧ (decode cmd = .ok .stat → cmd = [0x06]) ∧
    (∀ k, decode cmd = .ok (.read k) → cmd.head? = some 0x04 ∧ cmd.length = 5) ∧
    (∀ n, decode cmd = .ok (.seek n) → cmd.head? = some 0x03 ∧ cmd.length = 9)) ∧
  ∀ b0 b1 b2 b3 b4 b5 b6 b7 : Byte, ∃ n : BlockIndex,
    decode [0x03, b0, b1, b2, b3, b4, b5, b6, b7] = .ok (.seek n) ∧
    (lowWord n).toNat = b0.toNat + 2 ^ 8 * b1.toNat + 2 ^ 16 * b2.toNat + 2 ^ 24 * b3.toNat ∧
    (highWord n).toNat = b4.toNat + 2 ^ 8 * b5.toNat + 2 ^ 16 * b6.toNat + 2 ^ 24 * b7.toNat ∧
    n.toNat = (highWord n).toNat * 2 ^ 32 + (lowWord n).toNat

/-- R73, R77: the packets whose length depends on a field, for all bytes, and that every packet decoding to INIT or XOR
has that opcode and length. -/
def Obligations.VariableLengthPacketsDecode : Prop :=
  (∀ (r0 r1 r2 r3 k0 k1 n0 n1 : Byte) (key nonce : List Byte),
    key.length = k0.toNat + 2 ^ 8 * k1.toNat → nonce.length = n0.toNat + 2 ^ 8 * n1.toNat →
    ∃ rounds : Word,
      decode ([0x01, r0, r1, r2, r3, k0, k1, n0, n1] ++ key ++ nonce) =
        .ok (.init rounds key nonce) ∧
      rounds.toNat = r0.toNat + 2 ^ 8 * r1.toNat + 2 ^ 16 * r2.toNat + 2 ^ 24 * r3.toNat) ∧
  (∀ (cmd : Packet) (rounds : Word) (key nonce : List Byte), decode cmd = .ok (.init rounds key nonce) →
    cmd.head? = some 0x01 ∧ cmd.length = 9 + key.length + nonce.length) ∧
  (∀ (cmd : Packet) (dstLen : Word) (src : List Byte), decode cmd = .ok (.xor dstLen src) →
    cmd.head? = some 0x05 ∧ cmd.length = 9 + src.length) ∧
  ∀ (d0 d1 d2 d3 l0 l1 l2 l3 : Byte) (src : List Byte),
    src.length = l0.toNat + 2 ^ 8 * l1.toNat + 2 ^ 16 * l2.toNat + 2 ^ 24 * l3.toNat →
    ∃ dstLen : Word,
      decode ([0x05, d0, d1, d2, d3, l0, l1, l2, l3] ++ src) = .ok (.xor dstLen src) ∧
      dstLen.toNat = d0.toNat + 2 ^ 8 * d1.toNat + 2 ^ 16 * d2.toNat + 2 ^ 24 * d3.toNat

/-- The packets of 95_test_vectors.md section 4, one or more for each command, and some illegal ones. -/
def Obligations.ListedPacketsDecodeAsListed : Prop :=
  decode ([0x01, 0x14, 0, 0, 0, 0x20, 0, 0x08, 0] ++ List.replicate 40 0x00) =
    .ok (.init 20 (List.replicate 32 0x00) (List.replicate 8 0x00)) ∧
  decode [0x02] = .ok .gen ∧
  decode [0x03, 0xff, 0xff, 0xff, 0xff, 0, 0, 0, 0] = .ok (.seek 0xFFFFFFFF) ∧
  decode [0x03, 0, 0, 0, 0, 1, 0, 0, 0] = .ok (.seek 0x100000000) ∧
  decode [0x04, 0, 1, 0, 0] = .ok (.read 256) ∧
  decode [0x05, 3, 0, 0, 0, 2, 0, 0, 0, 0x61, 0x62] = .ok (.xor 3 [0x61, 0x62]) ∧
  decode [0x06] = .ok .stat ∧
  decode [0x02, 0x00] = .error .wrongLength ∧
  decode [0x05, 2, 0, 0, 0, 2, 0, 0, 0, 0x61] = .error .wrongLength ∧
  decode [0x09] = .error (.illegalOpcode 0x09) ∧
  decode [] = .error .emptyPacket

/-- Lines of the textual syntax and the pseudo-commands stand for the commands given (30_encoding.md section 6; spacing is
the model's choice, log entry 15). -/
def Obligations.SyntaxLinesStandForCommands : Prop :=
  assemble "INIT 20, key=0001, nonce=FF".toList = some [.init 20 [0x00, 0x01] [0xFF]] ∧
  assemble "GEN".toList = some [.gen] ∧ assemble "STAT".toList = some [.stat] ∧
  assemble "SEEK 0xFFFFFFFFFFFFFFFF".toList = some [.seek 0xFFFFFFFFFFFFFFFF] ∧
  assemble "READ 130".toList = some [.read 130] ∧
  assemble "XOR 3, src=6162".toList = some [.xor 3 [0x61, 0x62]] ∧
  assemble "XOR src=6162".toList = some [.xor 2 [0x61, 0x62]] ∧
  assemble "REWIND".toList = some [.seek 0] ∧ assemble "SKIP 36".toList = some [.read 36] ∧
  assemble "SEEKBYTE 100".toList = some [.seek 1, .read 36] ∧
  assemble "READ 4294967296".toList = none

/-! ### The datapath (40_arx_datapath.md) -/

/-- R100, R101, R102, R103 on all operands: the sum modulo `2^32`, exclusive or bit by bit, and the rotation by
`n` in 1 to 31 as its formula and as the move of each bit `i` to `(i + n) mod 32`. -/
def Obligations.WordOperationsCompute : Prop :=
  (∀ a b : Word, (add32 a b).toNat = (a.toNat + b.toNat) % 2 ^ 32) ∧
  (∀ a b : Word, ∀ i < 32, (xor32 a b).getLsbD i = (a.getLsbD i ^^ b.getLsbD i)) ∧
  (∀ a b : Byte, ∀ i < 8, (xor8 a b).getLsbD i = (a.getLsbD i ^^ b.getLsbD i)) ∧
  ∀ (v : Word) (n : Nat), 1 ≤ n → n ≤ 31 →
    (rotl32 v n).toNat = v.toNat * 2 ^ n % 2 ^ 32 + v.toNat / 2 ^ (32 - n) ∧
    ∀ i < 32, (rotl32 v n).getLsbD ((i + n) % 32) = v.getLsbD i

/-- R104: the four lines of the quarter round, and its listed values. -/
def Obligations.QuarterRoundComputes : Prop :=
  (∀ a b c d a1 b1 c1 d1 a2 b2 c2 d2 : Word,
    a1 = add32 a b → d1 = rotl32 (xor32 d a1) 16 →
    c1 = add32 c d1 → b1 = rotl32 (xor32 b c1) 12 →
    a2 = add32 a1 b1 → d2 = rotl32 (xor32 d1 a2) 8 →
    c2 = add32 c1 d2 → b2 = rotl32 (xor32 b1 c2) 7 → qr a b c d = ⟨a2, b2, c2, d2⟩) ∧
  qr 0 0 0 0 = ⟨0, 0, 0, 0⟩ ∧
  qr 1 0 0 0 = ⟨0x10000001, 0x80808808, 0x01010110, 0x01000110⟩ ∧
  qr 0xFFFFFFFF 0xFFFFFFFF 0xFFFFFFFF 0xFFFFFFFF =
    ⟨0xf0000ffd, 0x88790878, 0x0110fdef, 0x010ffdf0⟩ ∧
  qr 0x11111111 0x01020304 0x9b8d6f43 0x01234567 =
    ⟨0xea2a92f4, 0xcb1cf8ce, 0x4581472e, 0x5881c4bb⟩

/-- The quarter round is a bijection on quadruples of words (40_arx_datapath.md section 2). -/
def Obligations.QuarterRoundIsBijective : Prop :=
  (∀ a b c d a' b' c' d' : Word, qr a b c d = qr a' b' c' d' →
    a = a' ∧ b = b' ∧ c = c' ∧ d = d') ∧
  ∀ q : Quad, ∃ a b c d : Word, qr a b c d = q

/-- R106: four distinct entries are replaced by the quarter round of their old values, and the other twelve
are unchanged. -/
def Obligations.QuarterRoundInPlace : Prop :=
  ∀ (x : Words) (ia ib ic id : Fin 16),
    ia ≠ ib → ia ≠ ic → ia ≠ id → ib ≠ ic → ib ≠ id → ic ≠ id →
    (⟨(qrx x ia ib ic id)[ia], (qrx x ia ib ic id)[ib], (qrx x ia ib ic id)[ic],
      (qrx x ia ib ic id)[id]⟩ : Quad) = qr x[ia] x[ib] x[ic] x[id] ∧
    ∀ j : Fin 16, j ≠ ia → j ≠ ib → j ≠ ic → j ≠ id → (qrx x ia ib ic id)[j] = x[j]

/-- Two in-place quarter rounds on disjoint quadruples may be done in either order, so the four of a round may
be done in any order (40_arx_datapath.md section 3). -/
def Obligations.DisjointQuarterRoundsCommute : Prop :=
  ∀ (x : Words) (ia ib ic id ja jb jc jd : Fin 16),
    [ia, ib, ic, id, ja, jb, jc, jd].Nodup →
    qrx (qrx x ia ib ic id) ja jb jc jd = qrx (qrx x ja jb jc jd) ia ib ic id

/-- R108, R109, R110: each round applies the quarter round to its four quadruples, taken from the array the round
started with; the double round is the column round, then the diagonal round; and the listed values. -/
def Obligations.RoundsApplyTheirQuadruples : Prop :=
  (∀ x : Words, ∀ j : Fin 16, ∀ q ∈ [((0 : Fin 16), (4 : Fin 16), (8 : Fin 16), (12 : Fin 16)),
      (1, 5, 9, 13), (2, 6, 10, 14), (3, 7, 11, 15)],
    let r := qr x[q.1] x[q.2.1] x[q.2.2.1] x[q.2.2.2]
    (j = q.1 → (colRound x)[j] = r.a) ∧ (j = q.2.1 → (colRound x)[j] = r.b) ∧
    (j = q.2.2.1 → (colRound x)[j] = r.c) ∧ (j = q.2.2.2 → (colRound x)[j] = r.d)) ∧
  (∀ x : Words, ∀ j : Fin 16, ∀ q ∈ [((0 : Fin 16), (5 : Fin 16), (10 : Fin 16), (15 : Fin 16)),
      (1, 6, 11, 12), (2, 7, 8, 13), (3, 4, 9, 14)],
    let r := qr x[q.1] x[q.2.1] x[q.2.2.1] x[q.2.2.2]
    (j = q.1 → (diagRound x)[j] = r.a) ∧ (j = q.2.1 → (diagRound x)[j] = r.b) ∧
    (j = q.2.2.1 → (diagRound x)[j] = r.c) ∧ (j = q.2.2.2 → (diagRound x)[j] = r.d)) ∧
  (∀ x : Words, doubleRound x = diagRound (colRound x)) ∧
  colRound #v[0x61707865, 0x3320646e, 0x79622d32, 0x6b206574, 0, 0, 0, 0, 0, 0, 0, 0, 0, 0, 0, 0] =
    #v[0xb7877feb, 0x16526ab4, 0xa0f85005, 0xb1d26bcb, 0x4a7d5c86, 0xfae0ea21, 0x66e11e68,
       0xe3a851a6, 0x5a83fd3f, 0xa0c7c792, 0xf75be0ef, 0x0b7556f4, 0xe21e9bcf, 0x3c599472,
       0xca29678d, 0xa600ebd4] ∧
  doubleRound
      #v[0x61707865, 0x3320646e, 0x79622d32, 0x6b206574, 0, 0, 0, 0, 0, 0, 0, 0, 0, 0, 0, 0] =
    #v[0xe45fd249, 0x1bb820a6, 0xe31a88ea, 0xe667a9fe, 0x2a3bf673, 0x86bf4098, 0x460b500a,
       0xfa169886, 0x538dca0e, 0x0c439641, 0x00fa16bc, 0x8a08812a, 0x6bbf8b09, 0xc33013d6,
       0xbb9f9849, 0x87c62165] ∧
  colRound #v[0, 1, 2, 3, 4, 5, 6, 7, 8, 9, 10, 11, 12, 13, 14, 15] =
    #v[0x8000c004, 0xb000c006, 0x6000c008, 0x5000c00a, 0x64624444, 0xe5e35cdd, 0x63643533,
       0xe2e52daa, 0x08c80488, 0x0bcb06b9, 0x06c6086a, 0x05c50a5b, 0x08c00480, 0x0bc006b0,
       0x06c00860, 0x05c00a50] ∧
  diagRound #v[0, 1, 2, 3, 4, 5, 6, 7, 8, 9, 10, 11, 12, 13, 14, 15] =
    #v[0xa000f005, 0xb000d007, 0x4000f009, 0x9000d007, 0xecebcccc, 0x7d7ad555, 0xedebdddd,
       0x7a7ca422, 0x04f40948, 0x09d90799, 0x0afa05aa, 0x0bdb07bb, 0x0bd007b0, 0x04f00940,
       0x09d00790, 0x0af005a0]

/-- `PERMUTE(x, r)` for even `r` is `r` rounds in turn, column first, ending on a diagonal round
(40_arx_datapath.md R111 with the table of 41_block_transform.md R133). -/
def Obligations.PermuteAlternatesRounds : Prop :=
  ∀ (x : Words) (r : Word), r.toNat % 2 = 0 →
    permute x r = (List.range r.toNat).foldl roundAt x

/-- `PERMUTE` is a bijection on 16-word arrays and keeps the all-zero array (40_arx_datapath.md section 3). -/
def Obligations.PermuteIsBijective : Prop :=
  ∀ r : Word, (∀ x y : Words, permute x r = permute y r → x = y) ∧
    (∀ y : Words, ∃ x : Words, permute x r = y) ∧
    permute (Vector.replicate 16 0) r = Vector.replicate 16 0

/-- R113, R114, R51: the feed-forward adds word by word, and byte `4*i + m` of the serialised block is bits
`8*m + 7` down to `8*m` of word `i`. -/
def Obligations.FeedForwardAndSerialize : Prop :=
  ∀ (x w : Words) (i : Fin 16),
    (feedForward x w)[i] = add32 x[i] w[i] ∧
    ∀ (m : Nat) (h : m < 4), ∀ b < 8,
      ((serialize x)[4 * i.val + m]'(by omega)).getLsbD b = x[i].getLsbD (8 * m + b)

/-- R115: the counter increment, as a 64-bit addition and as a carry from word 12 into word 13, with its wrap;
the other words are unchanged. -/
def Obligations.CounterIncrements : Prop :=
  ∀ w : Words,
    (counter w).toNat = w[13].toNat * 2 ^ 32 + w[12].toNat ∧
    (counter (ctrInc w)).toNat = ((counter w).toNat + 1) % 2 ^ 64 ∧
    (ctrInc w)[12] = add32 w[12] 1 ∧
    (ctrInc w)[13] = (if add32 w[12] 1 = 0 then add32 w[13] 1 else w[13]) ∧
    (ctrWraps w = true ↔ (counter w).toNat = 2 ^ 64 - 1) ∧
    (ctrWraps w = true ↔ (ctrInc w)[12] = 0 ∧ (ctrInc w)[13] = 0) ∧
    ∀ j : Fin 16, j ≠ 12 → j ≠ 13 → (ctrInc w)[j] = w[j]

/-! ### The block transform and GEN (41_block_transform.md) -/

/-- The block transform: `fail` with no state change while `EXH = 1`, else the block of the counter at entry, the
counter incremented, `EXH` set on a wrap, `CUR = 0`, and the rest unchanged. `X` is left unspecified (log entry 4)
and nothing is said of it. -/
def Obligations.BlockTransformEffects : Prop :=
  ∀ s : State,
    (s.exh = true → block s = none) ∧
    (s.exh = false → ∃ t, block s = some t ∧
      t.out = serialize (feedForward (permute s.w s.rounds) s.w) ∧
      (counter t.w).toNat = ((counter s.w).toNat + 1) % 2 ^ 64 ∧
      (t.exh = true ↔ (counter s.w).toNat = 2 ^ 64 - 1) ∧
      t.cur = 0 ∧ sameInstanceWords s t ∧ t.rounds = s.rounds ∧ t.initd = s.initd ∧
      t.abrt = s.abrt ∧ t.inbox = s.inbox ∧ t.responses = s.responses)

/-- R132: the block of counter `2^64 - 1` is produced normally, the counter becomes 0 and `EXH` 1; all 64 bytes can
then be read (and XORed), and the next block transform fails. -/
def Obligations.LastBlockIsValidThenExhausted : Prop :=
  ∀ s : State, s.exh = false → (counter s.w).toNat = 2 ^ 64 - 1 →
    ∃ t, block s = some t ∧ t.out = blockOf s.w s.rounds ∧ counter t.w = 0 ∧ t.exh = true ∧
      t.cur = 0 ∧ block t = none ∧
      (s.initd = true → s.abrt = false →
        (∃ u, exec (.read 64) t = .next u ∧
          u.responses = s.responses ++ [[0x00, 64, 0, 0, 0] ++ t.out.toList] ∧ block u = none) ∧
        ∃ u, exec (.xor 64 (List.replicate 64 0x00)) t = .next u ∧
          u.responses = s.responses ++ [[0x00, 64, 0, 0, 0] ++ t.out.toList] ∧ block u = none)

/-- R135: GEN's answer in every state, its effect, and what it leaves unchanged. -/
def Obligations.GenAnswersAndEffects : Prop :=
  ∀ s : State,
    (s.abrt = true → exec .gen s = .next (respond [0x87] s)) ∧
    (s.abrt = false → s.initd = false → exec .gen s = .next (respond [0x86] s)) ∧
    (s.abrt = false → s.initd = true → s.exh = true → exec .gen s = .next (respond [0x84] s)) ∧
    (s.abrt = false → s.initd = true → s.exh = false → ∃ t, exec .gen s = .next t ∧
      t.responses = s.responses ++ [[0x00]] ∧ t.out = blockOf s.w s.rounds ∧
      (counter t.w).toNat = ((counter s.w).toNat + 1) % 2 ^ 64 ∧
      (t.exh = true ↔ (counter s.w).toNat = 2 ^ 64 - 1) ∧ t.cur = 0 ∧
      sameInstanceWords s t ∧ t.rounds = s.rounds ∧ t.initd = true ∧ t.abrt = false ∧
      t.inbox = s.inbox)

/-! ### INIT, SEEK, STAT (42_init_seek_stat.md) -/

/-- R140 to R143: INIT's checks in their order, each error changing nothing, and the instance a successful INIT
constructs, whatever was there before. -/
def Obligations.InitAnswersAndEffects : Prop :=
  ∀ (rounds : Word) (key nonce : List Byte) (s : State),
    (s.abrt = true → exec (.init rounds key nonce) s = .next (respond [0x87] s)) ∧
    (s.abrt = false → key.length < 32 →
      exec (.init rounds key nonce) s = .next (respond [0x81] s)) ∧
    (s.abrt = false → 32 ≤ key.length → nonce.length < 8 →
      exec (.init rounds key nonce) s = .next (respond [0x82] s)) ∧
    (s.abrt = false → 32 ≤ key.length → 8 ≤ nonce.length →
      (rounds.toNat = 0 ∨ rounds.toNat % 2 = 1) →
      exec (.init rounds key nonce) s = .next (respond [0x85] s)) ∧
    (s.abrt = false → 32 ≤ key.length → 8 ≤ nonce.length → 2 ≤ rounds.toNat →
      rounds.toNat % 2 = 0 →
      ∃ t, exec (.init rounds key nonce) s = .next t ∧ t.responses = s.responses ++ [[0x00]] ∧
        t.w[0] = 0x61707865 ∧ t.w[1] = 0x3320646e ∧ t.w[2] = 0x79622d32 ∧ t.w[3] = 0x6b206574 ∧
        (∀ (j : Nat) (h : j < 8), (t.w[4 + j]'(by omega)).toNat = (key.getD (4 * j) 0).toNat
          + 2 ^ 8 * (key.getD (4 * j + 1) 0).toNat + 2 ^ 16 * (key.getD (4 * j + 2) 0).toNat
          + 2 ^ 24 * (key.getD (4 * j + 3) 0).toNat) ∧
        t.w[12] = 0 ∧ t.w[13] = 0 ∧
        (∀ (j : Nat) (h : j < 2), (t.w[14 + j]'(by omega)).toNat = (nonce.getD (4 * j) 0).toNat
          + 2 ^ 8 * (nonce.getD (4 * j + 1) 0).toNat + 2 ^ 16 * (nonce.getD (4 * j + 2) 0).toNat
          + 2 ^ 24 * (nonce.getD (4 * j + 3) 0).toNat) ∧
        t.rounds = rounds ∧ t.cur = 64 ∧ t.exh = false ∧ t.initd = true ∧ t.abrt = false ∧
        t.inbox = s.inbox)

/-- Only the first 32 key bytes and the first 8 nonce bytes are used: a longer key or nonce gives the outcome of
the cut one (42_init_seek_stat.md section 1, corner cases). -/
def Obligations.InitIgnoresExtraBytes : Prop :=
  ∀ (rounds : Word) (key nonce : List Byte) (s : State), 32 ≤ key.length → 8 ≤ nonce.length →
    exec (.init rounds key nonce) s = exec (.init rounds (key.take 32) (nonce.take 8)) s

/-- R145, R146: SEEK's answer in every state, its effect, and what it leaves unchanged; past the common checks it
always answers `OK`, at `n = 2^64 - 1` too. -/
def Obligations.SeekAnswersAndEffects : Prop :=
  ∀ (n : BlockIndex) (s : State),
    (s.abrt = true → exec (.seek n) s = .next (respond [0x87] s)) ∧
    (s.abrt = false → s.initd = false → exec (.seek n) s = .next (respond [0x86] s)) ∧
    (s.abrt = false → s.initd = true → ∃ t, exec (.seek n) s = .next t ∧
      t.responses = s.responses ++ [[0x00]] ∧
      t.out = blockOf (setCounter s.w n) s.rounds ∧
      (counter t.w).toNat = (n.toNat + 1) % 2 ^ 64 ∧
      (t.exh = true ↔ n.toNat = 2 ^ 64 - 1) ∧ t.cur = 0 ∧
      sameInstanceWords s t ∧ t.rounds = s.rounds ∧ t.initd = true ∧ t.abrt = false ∧
      t.inbox = s.inbox)

/-- "SEEK(n) twice in a row leaves the same state as once" (42_init_seek_stat.md section 2), but for the hidden,
unspecified `X`. -/
def Obligations.SeekTwiceIsSeekOnce : Prop :=
  ∀ (n : BlockIndex) (s t u : State), exec (.seek n) s = .next t → exec (.seek n) t = .next u →
    u.w = t.w ∧ u.rounds = t.rounds ∧ u.out = t.out ∧ u.cur = t.cur ∧ u.exh = t.exh ∧
    u.initd = t.initd ∧ u.abrt = t.abrt

/-- R148, R83: STAT answers in every state with the fifteen bytes of the table and changes nothing. -/
def Obligations.StatAnswersInEveryState : Prop :=
  ∀ s : State, ∃ (flags : Byte) (rounds lo hi : Word),
    exec .stat s = .next (respond ([0x00, flags, BitVec.ofNat 8 s.cur.val]
      ++ wordBytes rounds ++ wordBytes lo ++ wordBytes hi) s) ∧
    flags.getLsbD 0 = s.initd ∧ flags.getLsbD 1 = s.exh ∧ flags.getLsbD 2 = s.abrt ∧
    (∀ b, 3 ≤ b → flags.getLsbD b = false) ∧
    (s.initd = true → rounds = s.rounds ∧ lo = s.w[12] ∧ hi = s.w[13]) ∧
    (s.initd = false → rounds = 0 ∧ lo = 0 ∧ hi = 0)

/-! ### READ and XOR (43_stream_ops.md) -/

/-- R160: the byte drain in its three cases: the byte at `CUR` while there is one, whatever `EXH`; a new block and
its byte 0 at `CUR = 64`; `dry`. -/
def Obligations.NextByteServesOrRunsDry : Prop :=
  ∀ s : State,
    (∀ h : s.cur.val < 64, ∃ t, nextByte s = some (s.out[s.cur.val], t) ∧
      t.cur.val = s.cur.val + 1 ∧ t.w = s.w ∧ t.rounds = s.rounds ∧ t.out = s.out ∧
      t.exh = s.exh ∧ t.initd = s.initd ∧ t.abrt = s.abrt ∧ t.x = s.x) ∧
    (s.cur.val = 64 → s.exh = false → ∃ t u, block s = some t ∧ nextByte s = some (t.out[0], u) ∧
      u.cur.val = 1 ∧ u.w = t.w ∧ u.rounds = t.rounds ∧ u.out = t.out ∧ u.exh = t.exh ∧
      u.initd = t.initd ∧ u.abrt = t.abrt) ∧
    (s.cur.val = 64 → s.exh = true → nextByte s = none)

/-- READ on an initialised, un-aborted engine completes for every `k`: it delivers as many bytes as asked or as are
left (70_reset_and_hazards.md R218), answers `EOS` exactly when it delivers fewer than asked, and consumes what it
delivers; it never sets `ABRT`, and the instance words, `ROUNDS`, `INITD` and the port's pending events are
unchanged. -/
def Obligations.ReadCompletesAndCounts : Prop :=
  ∀ (k : Word) (s : State), s.abrt = false → s.initd = true →
    ∃ (t : State) (data : List Byte), exec (.read k) s = .next t ∧
      data.length = min k.toNat (bytesLeft s) ∧
      t.responses = s.responses ++
        [(if data.length < k.toNat then 0x01 else 0x00) :: (leBytes 4 data.length ++ data)] ∧
      bytesLeft t = bytesLeft s - data.length ∧
      sameInstanceWords s t ∧ t.rounds = s.rounds ∧ t.initd = true ∧ t.abrt = false ∧
      t.inbox = s.inbox

/-- READ within the block in hand: the bytes of `OUT` from `CUR` on, in order; `CUR` advances over them and every
other register, `X` included, is unchanged; `EXH` is not consulted. -/
def Obligations.ReadWithinBlock : Prop :=
  ∀ (k : Word) (s : State), s.abrt = false → s.initd = true → s.cur.val + k.toNat ≤ 64 →
    ∃ t : State, exec (.read k) s = .next t ∧
      t.responses = s.responses ++ [0x00 :: (leBytes 4 k.toNat ++
        (s.out.toList.drop s.cur.val).take k.toNat)] ∧
      t.cur.val = s.cur.val + k.toNat ∧ t.w = s.w ∧ t.rounds = s.rounds ∧ t.out = s.out ∧
      t.exh = s.exh ∧ t.initd = s.initd ∧ t.abrt = s.abrt ∧ t.x = s.x ∧ t.inbox = s.inbox

/-- The data of READ is the keystream from the engine's position on, over any number of blocks: byte `i` is byte
`p + i` of the concatenated keystream blocks (43_stream_ops.md section 2). -/
def Obligations.ReadDeliversKeystream : Prop :=
  ∀ (k : Word) (s : State), s.Inv → s.abrt = false → s.initd = true →
    ∃ (t : State) (st : Byte) (data : List Byte), exec (.read k) s = .next t ∧
      t.responses = s.responses ++ [st :: (leBytes 4 data.length ++ data)] ∧
      data = (List.range (min k.toNat (2 ^ 70 - streamPos s))).map
        (fun i => keystreamByte s.w s.rounds (streamPos s + i)) ∧
      streamPos t = streamPos s + data.length

/-- Splitting a read changes neither the bytes nor the state it leaves (43_stream_ops.md section 2). That `X` too is the same
is the model's choice (log entries 4 and 5): R36 and R134 leave `X` unspecified after a block transform. -/
def Obligations.SplitReadsDeliverTheSame : Prop :=
  ∀ (a b c : Word) (s t u v : State), a.toNat + b.toNat = c.toNat →
    s.abrt = false → s.initd = true →
    exec (.read a) s = .next t → exec (.read b) t = .next u → exec (.read c) s = .next v →
    u.SameRegisters v ∧
    ∃ (x y z : Byte) (d e : List Byte),
      u.responses = s.responses ++
        [x :: (leBytes 4 d.length ++ d), y :: (leBytes 4 e.length ++ e)] ∧
      v.responses = s.responses ++ [z :: (leBytes 4 (d ++ e).length ++ (d ++ e))] ∧
      (z = 0x01 ↔ x = 0x01 ∨ y = 0x01)

/-- `READ 0` and the empty XOR answer `OK` with count 0 and change nothing, in state DRY too (43_stream_ops.md
section 2 and section 3, corner cases). -/
def Obligations.EmptyRequestsChangeNothing : Prop :=
  ∀ s : State, s.abrt = false → s.initd = true →
    exec (.read 0) s = .next (respond [0x00, 0, 0, 0, 0] s) ∧
    exec (.xor 0 []) s = .next (respond [0x00, 0, 0, 0, 0] s)

/-- XOR with enough keystream left completes: it answers the source bytes XORed with the bytes READ would have
delivered, and leaves the engine in the state READ would have left (43_stream_ops.md section 3). That `X` too is the same is the
model's choice (log entries 4 and 5). -/
def Obligations.XorIsReadCombinedWithSource : Prop :=
  ∀ (dstLen : Word) (src : List Byte) (s : State), s.abrt = false → s.initd = true →
    src.length = dstLen.toNat → src.length ≤ bytesLeft s →
    ∃ (t : State) (data : List Byte), data.length = src.length ∧
      exec (.read dstLen) s = .next (respond (0x00 :: (leBytes 4 src.length ++ data)) t) ∧
      exec (.xor dstLen src) s =
        .next (respond (0x00 :: (leBytes 4 src.length ++ List.zipWith xor8 src data)) t) ∧
      t.responses = s.responses

/-- An XOR that needs a byte beyond the end (43_stream_ops.md section 3, R166) answers the single byte 0x84 and latches `ABRT`; the state is
otherwise the one in which a READ of the same length leaves the engine, state DRY; the counter is 0; and from then
on every command but STAT is refused with `Aborted`. That `X` too is as READ leaves it is the model's choice (log
entries 4 and 5); that a byte beyond the end is needed is said by the count of bytes left (70_reset_and_hazards.md
section 3, R218). -/
def Obligations.XorBeyondTheEndAborts : Prop :=
  ∀ (dstLen : Word) (src : List Byte) (s : State), s.Inv → s.abrt = false → s.initd = true →
    src.length = dstLen.toNat → bytesLeft s < src.length →
    ∃ t r : State, exec (.xor dstLen src) s = .next t ∧ exec (.read dstLen) s = .next r ∧
      t.responses = s.responses ++ [[0x84]] ∧
      t.abrt = true ∧ t.exh = true ∧ t.cur = 64 ∧ counter t.w = 0 ∧
      t.w = r.w ∧ t.rounds = r.rounds ∧ t.out = r.out ∧ t.cur = r.cur ∧ t.exh = r.exh ∧
      t.initd = r.initd ∧ t.x = r.x ∧ t.inbox = s.inbox ∧
      ∀ i : Instr, i ≠ .stat → exec i t = .next (respond [0x87] t)

/-- R167: mismatched lengths are answered 0x83 before anything is consumed, in state DRY too. -/
def Obligations.XorLengthMismatchChangesNothing : Prop :=
  ∀ (dstLen : Word) (src : List Byte) (s : State), s.abrt = false → s.initd = true →
    dstLen.toNat ≠ src.length → exec (.xor dstLen src) s = .next (respond [0x83] s)

/-- XOR undoes itself from the same state of the registers (43_stream_ops.md section 3). -/
def Obligations.XorUndoesItself : Prop :=
  ∀ (dstLen : Word) (src : List Byte) (s s' : State), s.SameRegisters s' →
    s.abrt = false → s.initd = true → src.length = dstLen.toNat → src.length ≤ bytesLeft s →
    ∃ (dst : List Byte) (t t' : State), dst.length = src.length ∧
      exec (.xor dstLen src) s = .next t ∧
      t.responses = s.responses ++ [0x00 :: (leBytes 4 src.length ++ dst)] ∧
      exec (.xor dstLen dst) s' = .next t' ∧
      t'.responses = s'.responses ++ [0x00 :: (leBytes 4 src.length ++ src)]

/-! ### Errors, operating states, flags (60_exceptions.md, 10_state.md) -/

/-- R183: while `INITD = 0` (and `ABRT = 0`) GEN, SEEK, READ and XOR are refused with 0x86 and change nothing; INIT and
STAT are not refused so. -/
def Obligations.UninitialisedCommandsRefused : Prop :=
  ∀ (i : Instr) (s : State), s.abrt = false → s.initd = false →
    ((i = .gen ∨ (∃ n, i = .seek n) ∨ (∃ k, i = .read k) ∨ ∃ d src, i = .xor d src) →
      exec i s = .next (respond [0x86] s)) ∧
    ((i = .stat ∨ ∃ r k n, i = .init r k n) → exec i s ≠ .next (respond [0x86] s))

/-- R184: while `ABRT = 1` every command but STAT is refused with 0x87 and changes nothing, STAT answers its fifteen
bytes, and only hardware reset clears `ABRT`. -/
def Obligations.AbortedUntilReset : Prop :=
  (∀ (i : Instr) (s : State), s.abrt = true → i ≠ .stat → exec i s = .next (respond [0x87] s)) ∧
  (∀ s : State, s.abrt = true → ∃ rsp : Packet, rsp.length = 15 ∧ rsp.head? = some 0x00 ∧
    exec .stat s = .next (respond rsp s)) ∧
  ∀ s t : State, s.abrt = true → step s = .next t → t.abrt = false →
    ∃ c rest, s.inbox = .reset c :: rest

/-- R190: an error response, other than 0x84 to an XOR, leaves every register as it was; so does `EOS` with count 0, and so
does STAT. The second part is the error `IllegalCommand`, to a packet that is no command. -/
def Obligations.ErrorsChangeNoRegister : Prop :=
  (∀ (i : Instr) (s t : State) (rsp : Packet), exec i s = .next t →
    t.responses = s.responses ++ [rsp] →
    ((∃ e : Byte, rsp = [e] ∧ 0x80 ≤ e.toNat ∧ ¬(e = 0x84 ∧ ∃ d src, i = .xor d src)) ∨
      rsp = [0x01, 0, 0, 0, 0] ∨ i = .stat) →
    s.SameRegisters t) ∧
  ∀ (cmd : Packet) (rest : List PortEvent) (s t : State), s.inbox = .packet cmd :: rest →
    ¬packetWellFormed cmd → step s = .next t → s.SameRegisters t

/-- Where each command may leave the engine, by the operating state it finds (the tables of 60_exceptions.md
section 6). -/
def Obligations.OperatingStateTransitions : Prop :=
  ∀ (i : Instr) (s t : State), exec i s = .next t → opState t ∈ (opState s).after i

/-- How the three flags change under a command (10_state.md section 4): `INITD` rises only by an INIT answered `OK` and
never falls; `EXH` rises only by GEN, SEEK, READ or XOR, with the counter at 0 afterwards, and falls only by SEEK or
INIT; `ABRT` rises only by an XOR answered 0x84 and never falls. -/
def Obligations.FlagsChangeOnlyAsGiven : Prop :=
  ∀ (i : Instr) (s t : State), exec i s = .next t →
    (s.initd = true → t.initd = true) ∧
    (s.initd = false → t.initd = true →
      (∃ r k n, i = .init r k n) ∧ t.responses = s.responses ++ [[0x00]]) ∧
    (s.exh = false → t.exh = true → counter t.w = 0 ∧
      (i = .gen ∨ (∃ n, i = .seek n) ∨ (∃ k, i = .read k) ∨ ∃ d src, i = .xor d src)) ∧
    (s.exh = true → t.exh = false → (∃ n, i = .seek n) ∨ ∃ r k n, i = .init r k n) ∧
    (s.abrt = true → t.abrt = true) ∧
    (s.abrt = false → t.abrt = true →
      (∃ d src, i = .xor d src) ∧ t.responses = s.responses ++ [[0x84]])

/-- A command other than INIT, and an INIT that is not answered `OK`, leaves `W[0..11]`, `W[14..15]` and `ROUNDS` as they
were (10_state.md section 2). -/
def Obligations.OnlyInitWritesInstanceWords : Prop :=
  ∀ (i : Instr) (s t : State), exec i s = .next t →
    ((∃ r k n, i = .init r k n) → t.responses ≠ s.responses ++ [[0x00]]) →
    sameInstanceWords s t ∧ t.rounds = s.rounds

/-! ### Steps, reset, the port (20_memory.md, 70_reset_and_hazards.md) -/

/-- A step on a packet that decodes is the command's meaning, on the state from whose port the packet was taken. -/
def Obligations.StepExecutesDecodedCommand : Prop :=
  (∀ (cmd : Packet) (i : Instr) (rest : List PortEvent) (s : State),
    s.inbox = .packet cmd :: rest → decode cmd = .ok i →
    step s = exec i { s with inbox := rest }) ∧
  ∀ (i : Instr) (rest : List PortEvent) (s : State),
    s.inbox = .packet (encode i) :: rest → i.wf = true →
    step s = exec i { s with inbox := rest }

/-- While nothing is pending the engine waits and keeps all its state (60_exceptions.md section 9; log entry 7). -/
def Obligations.WaitingKeepsAllState : Prop :=
  ∀ s : State, s.inbox = [] → step s = .next s

/-- A hardware reset (70_reset_and_hazards.md section 1, R210), alone or cutting a command short, clears `INITD`, `ABRT` and `EXH`, sets `CUR` to 64 and sends no
response; and no other step clears `INITD` or `ABRT`. That the whole next state is the same whatever command was cut short is the
model's choice: for the unspecified registers log entries 2 and 5, for the form of the event log entry 14, for the pending
events log entry 8. What the unspecified registers hold is not said. -/
def Obligations.HardwareResetEffects : Prop :=
  (∀ (c : Option Packet) (rest : List PortEvent) (s : State), s.inbox = .reset c :: rest →
    ∃ t, step s = .next t ∧ t.initd = false ∧ t.abrt = false ∧ t.exh = false ∧ t.cur = 64 ∧
      t.responses = s.responses ∧ step { s with inbox := .reset none :: rest } = .next t) ∧
  ∀ s t : State, step s = .next t →
    ((s.initd = true ∧ t.initd = false) ∨ (s.abrt = true ∧ t.abrt = false)) →
    ∃ c rest, s.inbox = .reset c :: rest

/-- R39: the flags and the cursor after hardware reset, at power-on. -/
def Obligations.ResetStateAsGiven : Prop :=
  State.reset.initd = false ∧ State.reset.abrt = false ∧ State.reset.exh = false ∧
  State.reset.cur = 64 ∧ opState State.reset = .uninit

/-- After a reset (70_reset_and_hazards.md section 1, R211), at power-on or later, the engine is in state UNINIT and waits for a
command (that a wait is a step which keeps all state is the model's inference, log entry 7); STAT answers the fifteen
bytes given and GEN, SEEK, READ and XOR answer 0x86. -/
def Obligations.FirstAnswersAfterReset : Prop :=
  ∀ s : State, (s = State.reset ∨ ∃ r : State, s = hardwareReset r) →
    opState s = .uninit ∧ (s.inbox = [] → step s = .next s) ∧
    exec .stat s =
      .next (respond [0x00, 0x00, 0x40, 0, 0, 0, 0, 0, 0, 0, 0, 0, 0, 0, 0] s) ∧
    exec .gen s = .next (respond [0x86] s) ∧
    (∀ n, exec (.seek n) s = .next (respond [0x86] s)) ∧
    (∀ k, exec (.read k) s = .next (respond [0x86] s)) ∧
    ∀ d src, exec (.xor d src) s = .next (respond [0x86] s)

/-- Every packet is answered, at once and once, by a response of a legal form; it is taken from the port and nothing else
of the port changes; the step does not stop (30_encoding.md R71 in section 2, the forms in section 3, R85 in section 5;
70_reset_and_hazards.md section 4). -/
def Obligations.EveryPacketAnsweredOnce : Prop :=
  ∀ (cmd : Packet) (rest : List PortEvent) (s : State), s.inbox = .packet cmd :: rest →
    ∃ (t : State) (rsp : Packet), step s = .next t ∧ t.inbox = rest ∧
      t.responses = s.responses ++ [rsp] ∧ responseLegal rsp

/-- The invariants of an instance hold after reset (10_state.md section 7). -/
def Obligations.InvariantAtReset : Prop :=
  State.reset.Inv

/-- Every step, whatever arrives, keeps the invariants of an instance (10_state.md section 7): constants in `W[0..3]`,
`OUT` the block before the counter, `EXH` only at counter 0, an even round count, `ABRT` only in DRY. -/
def Obligations.EveryStepKeepsInvariant : Prop :=
  ∀ s t : State, s.Inv → step s = .next t → t.Inv

/-! ### Whole-machine rules -/

/-- The instance last constructed is the one that answers, whatever commands came between: INIT establishes it, every
other command keeps it, and `SEEK n` then `READ 64` delivers `KSBLOCK(key, nonce, rounds, n)`, whatever the history
(41_block_transform.md section 1; 42_init_seek_stat.md section 2). -/
def Obligations.SeekThenReadDeliversKsBlock : Prop :=
  (∀ (key nonce : List Byte) (rounds : Word) (s t : State),
    exec (.init rounds key nonce) s = .next t → t.responses = s.responses ++ [[0x00]] →
    t.Holds key nonce rounds) ∧
  (∀ (key nonce : List Byte) (rounds : Word) (i : Instr) (s t : State),
    s.Holds key nonce rounds → exec i s = .next t → (∀ r k n, i ≠ .init r k n) →
    t.Holds key nonce rounds) ∧
  ∀ (key nonce : List Byte) (rounds : Word) (n : BlockIndex) (s : State),
    s.Holds key nonce rounds → s.abrt = false →
    ∃ t u : State, exec (.seek n) s = .next t ∧ exec (.read 64) t = .next u ∧
      t.out = ksBlock key nonce rounds n ∧
      u.responses = s.responses ++
        [[0x00], [0x00, 64, 0, 0, 0] ++ (ksBlock key nonce rounds n).toList]

/-- After a successful INIT, reading at once and reading after `SEEK 0` deliver the same (42_init_seek_stat.md section 2). -/
def Obligations.SeekZeroAfterInitReadsTheSame : Prop :=
  ∀ (rounds : Word) (key nonce : List Byte) (k : Word) (s t u v x : State),
    exec (.init rounds key nonce) s = .next t → t.responses = s.responses ++ [[0x00]] →
    exec (.seek 0) t = .next u → exec (.read k) t = .next v → exec (.read k) u = .next x →
    ∃ rsp : Packet, v.responses = t.responses ++ [rsp] ∧ x.responses = u.responses ++ [rsp]

/-- `SEEKBYTE b` is two commands that leave the engine with exactly the bytes from `b` on still to come
(30_encoding.md section 6). -/
def Obligations.SeekByteReachesItsOffset : Prop :=
  ∀ (b : BitVec 70) (s : State), s.abrt = false → s.initd = true →
    ∃ (n : BlockIndex) (k : Word) (t u : State), expand (.seekByte b) = [.seek n, .read k] ∧
      n.toNat = b.toNat / 64 ∧ k.toNat = b.toNat % 64 ∧
      exec (.seek n) s = .next t ∧ exec (.read k) t = .next u ∧ streamPos u = b.toNat

/-- What the spec leaves unspecified never shows: engines that agree but for `X`, for `OUT` with nothing unread, for `W` and
`ROUNDS` before an instance exists, and for the model's draws, still agree after any step, and have answered alike
(93_implementation_defined.md U9 to U11). That they still agree on the events pending behind a reset is the model's
choice (log entry 8). -/
def Obligations.UnspecifiedContentsNeverShow : Prop :=
  ∀ s s' : State, s.Alike s' → ∃ (t t' : State) (rsps : List Packet),
    step s = .next t ∧ step s' = .next t' ∧ t.Alike t' ∧
    t.responses = s.responses ++ rsps ∧ t'.responses = s'.responses ++ rsps

/-- STAT's answer depends on the flags, `CUR`, `ROUNDS` and the counter words alone: no key word, nonce word or byte of `OUT`
reaches it (10_state.md section 2). -/
def Obligations.StatRevealsOnlyControlState : Prop :=
  ∀ s s' : State, s.initd = s'.initd → s.exh = s'.exh → s.abrt = s'.abrt → s.cur = s'.cur →
    s.rounds = s'.rounds → s.w[12] = s'.w[12] → s.w[13] = s'.w[13] →
    ∃ rsp : Packet, exec .stat s = .next (respond rsp s) ∧ exec .stat s' = .next (respond rsp s')

/-- Two engines in any un-aborted states, constructed with the same key, nonce and round count and then given the same port
events, give the same responses for ever (60_exceptions.md section 8). The events may hold resets with packets behind them; that
those packets are still executed is the model's choice (log entry 8). -/
def Obligations.SameConstructionSameResponses : Prop :=
  ∀ (rounds : Word) (key nonce : List Byte) (rest : List PortEvent) (s s' : State),
    (Instr.init rounds key nonce).wf = true → 32 ≤ key.length → 8 ≤ nonce.length →
    2 ≤ rounds.toNat → rounds.toNat % 2 = 0 → s.abrt = false → s'.abrt = false →
    s.inbox = .packet (encode (.init rounds key nonce)) :: rest → s'.inbox = s.inbox →
    ∀ n : Nat, ∃ (t t' : State) (rsps : List Packet),
      Sys2Proof.core.run n s = .next t ∧ Sys2Proof.core.run n s' = .next t' ∧
      t.responses = s.responses ++ rsps ∧ t'.responses = s'.responses ++ rsps
end

