-- ==== Sys2Proof/Laws/Operands.lean ====
section
/-! SUPPORT. Little-endian fields: lengths, and reading back what was written. -/

namespace Sys2Proof.Machine

@[simp] theorem leBytes_length (n v : Nat) : (leBytes n v).length = n := by
  induction n generalizing v with
  | zero => rfl
  | succ n ih => simp [leBytes, ih]

@[simp] theorem wordBytes_length (w : Word) : (wordBytes w).length = 4 :=
  leBytes_length 4 _

theorem leNat_lt (bs : List Byte) : leNat bs < 256 ^ bs.length := by
  induction bs with
  | nil => simp [leNat]
  | cons b bs ih =>
    have hb : b.toNat < 256 := b.isLt
    simp only [leNat, List.length_cons, pow_succ]
    omega

/-- Reading back the bytes of a number gives it modulo the field's range. -/
theorem leNat_leBytes (n v : Nat) : leNat (leBytes n v) = v % 256 ^ n := by
  induction n generalizing v with
  | zero => simp [leNat, leBytes, Nat.mod_one]
  | succ n ih =>
    rw [leBytes, leNat, ih, BitVec.toNat_ofNat, Nat.pow_succ 256 n, Nat.mul_comm (256 ^ n) 256,
      Nat.mod_mul]

/-- The bytes of a byte string's number are the byte string. -/
theorem leBytes_leNat (bs : List Byte) : leBytes bs.length (leNat bs) = bs := by
  induction bs with
  | nil => rfl
  | cons b bs ih =>
    have hb : b.toNat < 256 := b.isLt
    have hdiv : (b.toNat + 256 * leNat bs) / 256 = leNat bs := by omega
    have hmod : BitVec.ofNat 8 (b.toNat + 256 * leNat bs) = b := by
      apply BitVec.eq_of_toNat_eq
      simp only [BitVec.toNat_ofNat]
      omega
    simp [leBytes, leNat, hdiv, hmod, ih]

theorem leNat_wordBytes (w : Word) : leNat (wordBytes w) = w.toNat := by
  rw [wordBytes, leNat_leBytes]
  exact Nat.mod_eq_of_lt w.isLt

@[simp] theorem joinWords_low_high (n : BlockIndex) : joinWords (lowWord n) (highWord n) = n := by
  apply BitVec.eq_of_getLsbD_eq
  intro i hi
  simp only [joinWords, lowWord, highWord, BitVec.getLsbD_append, BitVec.getLsbD_extractLsb']
  by_cases h : i < 32
  · simp [h]
  · have h1 : i - 32 < 32 := by omega
    have h2 : 32 + (i - 32) = i := by omega
    simp [h, h1, h2]

@[simp] theorem lowWord_joinWords (lo hi : Word) : lowWord (joinWords lo hi) = lo := by
  apply BitVec.eq_of_getLsbD_eq
  intro i h
  rw [lowWord, joinWords, BitVec.getLsbD_extractLsb', BitVec.getLsbD_append]
  simp [h]

@[simp] theorem highWord_joinWords (lo hi : Word) : highWord (joinWords lo hi) = hi := by
  apply BitVec.eq_of_getLsbD_eq
  intro i h
  rw [highWord, joinWords, BitVec.getLsbD_extractLsb', BitVec.getLsbD_append]
  simp [h]

/-- A field read back from a packet that starts with `pre` and holds it next. -/
theorem fieldAt_append (pre bs post : List Byte) :
    fieldAt (pre ++ bs ++ post) pre.length bs.length = leNat bs := by
  simp [fieldAt, List.append_assoc]

end Sys2Proof.Machine
end

