-- ==== Sys2Proof/Laws/Datapath.lean ====
section
/-! SUPPORT. Element by element facts about the datapath, and the counter. -/

namespace Sys2Proof.Machine

@[simp] theorem feedForward_get (x w : Words) (i : Nat) (h : i < 16) :
    (feedForward x w)[i] = x[i] + w[i] := by
  simp [feedForward, add32]

/-- Byte `j` of a serialised block. -/
@[simp] theorem serialize_get (y : Words) (j : Nat) (h : j < 64) :
    (serialize y)[j] = (y[j / 4]'(by omega)).extractLsb' (8 * (j % 4)) 8 := by
  simp [serialize]

/-- What `QRX` leaves at index `j`, for distinct indices. -/
theorem qrx_get (x : Words) (ia ib ic id : Fin 16) (j : Nat) (h : j < 16) :
    (qrx x ia ib ic id)[j] =
      if id.val = j then (qr x[ia] x[ib] x[ic] x[id]).d
      else if ic.val = j then (qr x[ia] x[ib] x[ic] x[id]).c
      else if ib.val = j then (qr x[ia] x[ib] x[ic] x[id]).b
      else if ia.val = j then (qr x[ia] x[ib] x[ic] x[id]).a
      else x[j] := by
  simp only [qrx, Vector.getElem_set]

@[simp] theorem setCounter_get (w : Words) (n : BlockIndex) (j : Nat) (h : j < 16) :
    (setCounter w n)[j] = if 13 = j then highWord n else if 12 = j then lowWord n else w[j] := by
  simp only [setCounter, Vector.getElem_set]

@[simp] theorem counter_setCounter (w : Words) (n : BlockIndex) : counter (setCounter w n) = n := by
  simp [counter]

@[simp] theorem setCounter_setCounter (w : Words) (m n : BlockIndex) :
    setCounter (setCounter w m) n = setCounter w n := by
  apply Vector.ext
  intro i hi
  simp only [setCounter_get]
  split <;> [rfl; skip]
  split <;> rfl

@[simp] theorem setCounter_counter (w : Words) : setCounter w (counter w) = w := by
  apply Vector.ext
  intro i hi
  simp only [setCounter_get, counter, highWord_joinWords, lowWord_joinWords]
  split
  · subst i; rfl
  · split
    · subst i; rfl
    · rfl

@[simp] theorem counter_ctrInc (w : Words) : counter (ctrInc w) = counter w + 1 := by
  simp [ctrInc]

@[simp] theorem setCounter_ctrInc (w : Words) (n : BlockIndex) :
    setCounter (ctrInc w) n = setCounter w n := by
  simp [ctrInc]

theorem ctrInc_get (w : Words) (j : Nat) (h : j < 16) (h12 : j ≠ 12) (h13 : j ≠ 13) :
    (ctrInc w)[j] = w[j] := by
  simp [ctrInc, Ne.symm h12, Ne.symm h13]

theorem ctrWraps_iff (w : Words) : ctrWraps w = true ↔ counter w = counterMax := by
  simp [ctrWraps]

/-- The counter reaches zero exactly when it wraps (40_arx_datapath.md R115). -/
theorem ctrWraps_iff_next_zero (w : Words) : ctrWraps w = true ↔ counter w + 1 = 0 := by
  rw [ctrWraps_iff, counterMax]
  constructor
  · intro h
    rw [h]
    rfl
  · intro h
    bv_omega

@[simp] theorem counter_instanceWords (key nonce : List Byte) (n : BlockIndex) :
    counter (instanceWords key nonce n) = n := by
  simp [counter, instanceWords]

@[simp] theorem setCounter_instanceWords (key nonce : List Byte) (m n : BlockIndex) :
    setCounter (instanceWords key nonce m) n = instanceWords key nonce n := by
  simp [setCounter, instanceWords]

/-- Applying double rounds one after the other. -/
theorem doubleRounds_add (m n : Nat) (x : Words) :
    doubleRounds (m + n) x = doubleRounds n (doubleRounds m x) := by
  induction m generalizing x with
  | zero => simp [doubleRounds]
  | succ m ih => rw [Nat.succ_add, doubleRounds, doubleRounds, ih]

end Sys2Proof.Machine
end

