-- ==== Sys2Proof/Laws/Decode.lean ====
section
/-! SUPPORT. The decoder by cases, and the lengths of encoded commands. -/

namespace Sys2Proof

open Machine

theorem wf_init_iff (rounds : Word) (key nonce : List Byte) :
    (Instr.init rounds key nonce).wf = true ↔ key.length < 2 ^ 16 ∧ nonce.length < 2 ^ 16 := by
  rw [Instr.wf, Bool.and_eq_true, decide_eq_true_eq, decide_eq_true_eq]
  rfl

theorem wf_xor_iff (dstLen : Word) (src : List Byte) :
    (Instr.xor dstLen src).wf = true ↔ src.length < 2 ^ 32 := by
  rw [Instr.wf, decide_eq_true_eq]
  rfl

/-- A byte string cut at `m` and at `m + n`. -/
theorem take_drop_append (n m : Nat) (bs : List Byte) :
    (bs.drop m).take n ++ bs.drop (m + n) = bs.drop m := by
  rw [← List.drop_drop, List.take_append_drop]

/-- What decoding a packet with a given opcode comes to. -/
theorem decode_cons (op : Byte) (body : List Byte) :
    (op = 0x01 ∧ decode (op :: body) = decodeInit (op :: body)) ∨
    (op = 0x02 ∧ decode (op :: body) = decodeGen (op :: body)) ∨
    (op = 0x03 ∧ decode (op :: body) = decodeSeek (op :: body)) ∨
    (op = 0x04 ∧ decode (op :: body) = decodeRead (op :: body)) ∨
    (op = 0x05 ∧ decode (op :: body) = decodeXor (op :: body)) ∨
    (op = 0x06 ∧ decode (op :: body) = decodeStat (op :: body)) ∨
    (op ≠ 0x01 ∧ op ≠ 0x02 ∧ op ≠ 0x03 ∧ op ≠ 0x04 ∧ op ≠ 0x05 ∧ op ≠ 0x06 ∧
      decode (op :: body) = .error (.illegalOpcode op)) := by
  by_cases h1 : op = 0x01
  · subst h1; simp [decode]
  by_cases h2 : op = 0x02
  · subst h2; simp [decode]
  by_cases h3 : op = 0x03
  · subst h3; simp [decode]
  by_cases h4 : op = 0x04
  · subst h4; simp [decode]
  by_cases h5 : op = 0x05
  · subst h5; simp [decode]
  by_cases h6 : op = 0x06
  · subst h6; simp [decode]
  refine .inr (.inr (.inr (.inr (.inr (.inr ⟨h1, h2, h3, h4, h5, h6, ?_⟩)))))
  rw [decode, if_neg h1, if_neg h2, if_neg h3, if_neg h4, if_neg h5, if_neg h6]

/-- Decoding an encoded command goes to the decoder of its opcode. -/
theorem decode_encode_init (rounds : Word) (key nonce : List Byte) :
    decode (encode (.init rounds key nonce)) = decodeInit (encode (.init rounds key nonce)) := by
  simp [encode, opcodeOf, decode]

theorem decode_encode_seek (n : BlockIndex) :
    decode (encode (.seek n)) = decodeSeek (encode (.seek n)) := by
  simp [encode, opcodeOf, decode]

theorem decode_encode_read (k : Word) :
    decode (encode (.read k)) = decodeRead (encode (.read k)) := by
  simp [encode, opcodeOf, decode]

theorem decode_encode_xor (dstLen : Word) (src : List Byte) :
    decode (encode (.xor dstLen src)) = decodeXor (encode (.xor dstLen src)) := by
  simp [encode, opcodeOf, decode]

theorem ofNat_leNat_wordBytes (w : Word) : BitVec.ofNat 32 (leNat (wordBytes w)) = w := by
  rw [leNat_wordBytes, BitVec.ofNat_toNat, BitVec.setWidth_eq]

/-- A word field right after the first `pre.length` bytes. -/
theorem wordAt_append (pre : List Byte) (w : Word) (post : List Byte) (n : Nat)
    (h : pre.length = n) : wordAt (pre ++ (wordBytes w ++ post)) n = w := by
  subst h
  simp [wordAt, fieldAt, ofNat_leNat_wordBytes]

/-- A length field of `size` bytes right after the first `pre.length` bytes. -/
theorem fieldAt_leBytes (pre : List Byte) (size v : Nat) (post : List Byte) (n : Nat)
    (h : pre.length = n) : fieldAt (pre ++ (leBytes size v ++ post)) n size = v % 256 ^ size := by
  subst h
  simp [fieldAt, leNat_leBytes]

theorem decodeInit_encoded (rounds : Word) (key nonce : List Byte)
    (hk : key.length < 2 ^ 16) (hn : nonce.length < 2 ^ 16) :
    decodeInit (encode (.init rounds key nonce)) = .ok (.init rounds key nonce) := by
  have e : encode (.init rounds key nonce) = [0x01] ++ (wordBytes rounds ++
      (leBytes 2 key.length ++ (leBytes 2 nonce.length ++ (key ++ nonce)))) := by
    simp [encode, encodeBody, opcodeOf]
  have hr : wordAt (encode (.init rounds key nonce)) 1 = rounds := by
    rw [e]; exact wordAt_append _ _ _ 1 rfl
  have hkl : fieldAt (encode (.init rounds key nonce)) 5 2 = key.length := by
    rw [e, ← List.append_assoc, fieldAt_leBytes _ _ _ _ 5 (by simp)]
    exact Nat.mod_eq_of_lt hk
  have hnl : fieldAt (encode (.init rounds key nonce)) 7 2 = nonce.length := by
    rw [e, ← List.append_assoc, ← List.append_assoc, fieldAt_leBytes _ _ _ _ 7 (by simp)]
    exact Nat.mod_eq_of_lt hn
  have hlen : (encode (.init rounds key nonce)).length = 9 + key.length + nonce.length := by
    rw [e]; simp; omega
  have hd : (encode (.init rounds key nonce)).drop 9 = key ++ nonce := by
    have h9 : ([0x01] ++ wordBytes rounds ++ leBytes 2 key.length ++ leBytes 2 nonce.length :
        List Byte).length = 9 := by simp
    rw [e, ← List.append_assoc, ← List.append_assoc, ← List.append_assoc, ← h9]
    exact List.drop_left
  have hd2 : (encode (.init rounds key nonce)).drop (9 + key.length) = nonce := by
    rw [← List.drop_drop, hd, List.drop_left]
  simp only [decodeInit, hr, hkl, hnl, hlen, hd, hd2]
  rw [if_pos ⟨by omega, trivial⟩, List.take_left, List.take_length]

theorem decodeXor_encoded (dstLen : Word) (src : List Byte) (hs : src.length < 2 ^ 32) :
    decodeXor (encode (.xor dstLen src)) = .ok (.xor dstLen src) := by
  have e : encode (.xor dstLen src) = [0x05] ++ (wordBytes dstLen ++
      (leBytes 4 src.length ++ src)) := by
    simp [encode, encodeBody, opcodeOf]
  have hr : wordAt (encode (.xor dstLen src)) 1 = dstLen := by
    rw [e]; exact wordAt_append _ _ _ 1 rfl
  have hsl : fieldAt (encode (.xor dstLen src)) 5 4 = src.length := by
    rw [e, ← List.append_assoc, fieldAt_leBytes _ _ _ _ 5 (by simp)]
    exact Nat.mod_eq_of_lt hs
  have hlen : (encode (.xor dstLen src)).length = 9 + src.length := by
    rw [e]; simp; omega
  have hd : (encode (.xor dstLen src)).drop 9 = src := by
    have h9 : ([0x05] ++ wordBytes dstLen ++ leBytes 4 src.length : List Byte).length = 9 := by
      simp
    rw [e, ← List.append_assoc, ← List.append_assoc, ← h9]
    exact List.drop_left
  simp only [decodeXor, hr, hsl, hlen, hd]
  rw [if_pos ⟨by omega, trivial⟩, List.take_length]

theorem decodeSeek_encoded (n : BlockIndex) :
    decodeSeek (encode (.seek n)) = .ok (.seek n) := by
  have e : encode (.seek n) = [0x03] ++ (wordBytes (lowWord n) ++
      (wordBytes (highWord n) ++ [])) := by
    simp [encode, encodeBody, opcodeOf]
  have h1 : wordAt (encode (.seek n)) 1 = lowWord n := by
    rw [e]; exact wordAt_append _ _ _ 1 rfl
  have h5 : wordAt (encode (.seek n)) 5 = highWord n := by
    rw [e, ← List.append_assoc]; exact wordAt_append _ _ _ 5 (by simp)
  have hlen : (encode (.seek n)).length = 9 := by rw [e]; simp
  simp only [decodeSeek, h1, h5, hlen, joinWords_low_high, if_true]

theorem decodeRead_encoded (k : Word) : decodeRead (encode (.read k)) = .ok (.read k) := by
  have e : encode (.read k) = [0x04] ++ (wordBytes k ++ []) := by
    simp [encode, encodeBody, opcodeOf]
  have h1 : wordAt (encode (.read k)) 1 = k := by
    rw [e]; exact wordAt_append _ _ _ 1 rfl
  have hlen : (encode (.read k)).length = 5 := by rw [e]; simp
  simp only [decodeRead, h1, hlen, if_true]

/-- The bytes of a field cut out of a packet long enough to hold it. -/
theorem leBytes_fieldAt (bs : List Byte) (offset size : Nat) (h : offset + size ≤ bs.length) :
    leBytes size (fieldAt bs offset size) = (bs.drop offset).take size := by
  have hl : ((bs.drop offset).take size).length = size := by simp; omega
  have := leBytes_leNat ((bs.drop offset).take size)
  rwa [hl] at this

theorem wordBytes_wordAt (bs : List Byte) (offset : Nat) (h : offset + 4 ≤ bs.length) :
    wordBytes (wordAt bs offset) = (bs.drop offset).take 4 := by
  have hl : ((bs.drop offset).take 4).length = 4 := by simp; omega
  have hlt := leNat_lt ((bs.drop offset).take 4)
  rw [hl] at hlt
  have hlt' : fieldAt bs offset 4 < 2 ^ 32 := hlt
  rw [wordBytes, wordAt, BitVec.toNat_ofNat, Nat.mod_eq_of_lt hlt']
  exact leBytes_fieldAt bs offset 4 h

theorem fieldAt_lt (bs : List Byte) (offset size : Nat) : fieldAt bs offset size < 256 ^ size := by
  have hlt := leNat_lt ((bs.drop offset).take size)
  refine lt_of_lt_of_le hlt (Nat.pow_le_pow_right (by decide) ?_)
  simp

end Sys2Proof
end

