-- ==== Sys2Proof/Laws/State.lean ====
section
/-! SUPPORT. One lemma per field of State per update, true by rfl, so that no proof unfolds a record
update. -/

namespace Sys2Proof.Machine

variable (s : State)

@[simp] theorem respond_w (rsp : Packet) : (respond rsp s).w = s.w := rfl
@[simp] theorem respond_rounds (rsp : Packet) : (respond rsp s).rounds = s.rounds := rfl
@[simp] theorem respond_out (rsp : Packet) : (respond rsp s).out = s.out := rfl
@[simp] theorem respond_cur (rsp : Packet) : (respond rsp s).cur = s.cur := rfl
@[simp] theorem respond_exh (rsp : Packet) : (respond rsp s).exh = s.exh := rfl
@[simp] theorem respond_initd (rsp : Packet) : (respond rsp s).initd = s.initd := rfl
@[simp] theorem respond_abrt (rsp : Packet) : (respond rsp s).abrt = s.abrt := rfl
@[simp] theorem respond_x (rsp : Packet) : (respond rsp s).x = s.x := rfl
@[simp] theorem respond_inbox (rsp : Packet) : (respond rsp s).inbox = s.inbox := rfl
@[simp] theorem respond_responses (rsp : Packet) :
    (respond rsp s).responses = s.responses ++ [rsp] := rfl
@[simp] theorem respond_draws (rsp : Packet) : (respond rsp s).draws = s.draws := rfl

@[simp] theorem raise_w (k : ErrorKind) : (raise k s).w = s.w := rfl
@[simp] theorem raise_rounds (k : ErrorKind) : (raise k s).rounds = s.rounds := rfl
@[simp] theorem raise_out (k : ErrorKind) : (raise k s).out = s.out := rfl
@[simp] theorem raise_cur (k : ErrorKind) : (raise k s).cur = s.cur := rfl
@[simp] theorem raise_exh (k : ErrorKind) : (raise k s).exh = s.exh := rfl
@[simp] theorem raise_initd (k : ErrorKind) : (raise k s).initd = s.initd := rfl
@[simp] theorem raise_abrt (k : ErrorKind) : (raise k s).abrt = s.abrt := rfl
@[simp] theorem raise_x (k : ErrorKind) : (raise k s).x = s.x := rfl
@[simp] theorem raise_inbox (k : ErrorKind) : (raise k s).inbox = s.inbox := rfl
@[simp] theorem raise_responses (k : ErrorKind) :
    (raise k s).responses = s.responses ++ [[k.status]] := rfl
@[simp] theorem raise_draws (k : ErrorKind) : (raise k s).draws = s.draws := rfl


@[simp] theorem generate_w : (generate s).w = ctrInc s.w := by rw [generate]
@[simp] theorem generate_rounds : (generate s).rounds = s.rounds := by rw [generate]
@[simp] theorem generate_out : (generate s).out = blockOf s.w s.rounds := by rw [generate]
@[simp] theorem generate_cur : (generate s).cur = 0 := by rw [generate]
@[simp] theorem generate_exh : (generate s).exh = (s.exh || ctrWraps s.w) := by rw [generate]
@[simp] theorem generate_initd : (generate s).initd = s.initd := by rw [generate]
@[simp] theorem generate_abrt : (generate s).abrt = s.abrt := by rw [generate]
@[simp] theorem generate_x : (generate s).x = State.unspecifiedX s.draws := by rw [generate]
@[simp] theorem generate_inbox : (generate s).inbox = s.inbox := by rw [generate]
@[simp] theorem generate_responses : (generate s).responses = s.responses := by rw [generate]
@[simp] theorem generate_draws : (generate s).draws = s.draws + 1 := by rw [generate]

@[simp] theorem construct_w (rounds : Word) (key nonce : List Byte) :
    (construct rounds key nonce s).w = instanceWords key nonce 0 := rfl
@[simp] theorem construct_rounds (rounds : Word) (key nonce : List Byte) :
    (construct rounds key nonce s).rounds = rounds := rfl
@[simp] theorem construct_out (rounds : Word) (key nonce : List Byte) :
    (construct rounds key nonce s).out = State.unspecifiedOut s.draws := rfl
@[simp] theorem construct_cur (rounds : Word) (key nonce : List Byte) :
    (construct rounds key nonce s).cur = 64 := rfl
@[simp] theorem construct_exh (rounds : Word) (key nonce : List Byte) :
    (construct rounds key nonce s).exh = false := rfl
@[simp] theorem construct_initd (rounds : Word) (key nonce : List Byte) :
    (construct rounds key nonce s).initd = true := rfl
@[simp] theorem construct_abrt (rounds : Word) (key nonce : List Byte) :
    (construct rounds key nonce s).abrt = s.abrt := rfl
@[simp] theorem construct_x (rounds : Word) (key nonce : List Byte) :
    (construct rounds key nonce s).x = State.unspecifiedX s.draws := rfl
@[simp] theorem construct_inbox (rounds : Word) (key nonce : List Byte) :
    (construct rounds key nonce s).inbox = s.inbox := rfl
@[simp] theorem construct_responses (rounds : Word) (key nonce : List Byte) :
    (construct rounds key nonce s).responses = s.responses := rfl
@[simp] theorem construct_draws (rounds : Word) (key nonce : List Byte) :
    (construct rounds key nonce s).draws = s.draws + 1 := rfl

@[simp] theorem seekTo_w (n : BlockIndex) : (seekTo n s).w = setCounter s.w n := rfl
@[simp] theorem seekTo_rounds (n : BlockIndex) : (seekTo n s).rounds = s.rounds := rfl
@[simp] theorem seekTo_out (n : BlockIndex) : (seekTo n s).out = s.out := rfl
@[simp] theorem seekTo_cur (n : BlockIndex) : (seekTo n s).cur = s.cur := rfl
@[simp] theorem seekTo_exh (n : BlockIndex) : (seekTo n s).exh = false := rfl
@[simp] theorem seekTo_initd (n : BlockIndex) : (seekTo n s).initd = s.initd := rfl
@[simp] theorem seekTo_abrt (n : BlockIndex) : (seekTo n s).abrt = s.abrt := rfl
@[simp] theorem seekTo_x (n : BlockIndex) : (seekTo n s).x = s.x := rfl
@[simp] theorem seekTo_inbox (n : BlockIndex) : (seekTo n s).inbox = s.inbox := rfl
@[simp] theorem seekTo_responses (n : BlockIndex) : (seekTo n s).responses = s.responses := rfl
@[simp] theorem seekTo_draws (n : BlockIndex) : (seekTo n s).draws = s.draws := rfl

@[simp] theorem latchAbort_w : (latchAbort s).w = s.w := rfl
@[simp] theorem latchAbort_rounds : (latchAbort s).rounds = s.rounds := rfl
@[simp] theorem latchAbort_out : (latchAbort s).out = s.out := rfl
@[simp] theorem latchAbort_cur : (latchAbort s).cur = s.cur := rfl
@[simp] theorem latchAbort_exh : (latchAbort s).exh = s.exh := rfl
@[simp] theorem latchAbort_initd : (latchAbort s).initd = s.initd := rfl
@[simp] theorem latchAbort_abrt : (latchAbort s).abrt = true := rfl
@[simp] theorem latchAbort_x : (latchAbort s).x = s.x := rfl
@[simp] theorem latchAbort_inbox : (latchAbort s).inbox = s.inbox := rfl
@[simp] theorem latchAbort_responses : (latchAbort s).responses = s.responses := rfl
@[simp] theorem latchAbort_draws : (latchAbort s).draws = s.draws := rfl

@[simp] theorem hardwareReset_w : (hardwareReset s).w = State.unspecifiedW s.draws := rfl
@[simp] theorem hardwareReset_rounds :
    (hardwareReset s).rounds = Config.unspecifiedRounds s.draws := rfl
@[simp] theorem hardwareReset_out : (hardwareReset s).out = State.unspecifiedOut s.draws := rfl
@[simp] theorem hardwareReset_cur : (hardwareReset s).cur = 64 := rfl
@[simp] theorem hardwareReset_exh : (hardwareReset s).exh = false := rfl
@[simp] theorem hardwareReset_initd : (hardwareReset s).initd = false := rfl
@[simp] theorem hardwareReset_abrt : (hardwareReset s).abrt = false := rfl
@[simp] theorem hardwareReset_x : (hardwareReset s).x = State.unspecifiedX s.draws := rfl
@[simp] theorem hardwareReset_inbox : (hardwareReset s).inbox = s.inbox := rfl
@[simp] theorem hardwareReset_responses : (hardwareReset s).responses = s.responses := rfl
@[simp] theorem hardwareReset_draws : (hardwareReset s).draws = s.draws + 1 := rfl

@[simp] theorem rejectPacket_w : (rejectPacket s).w = s.w := rfl
@[simp] theorem rejectPacket_rounds : (rejectPacket s).rounds = s.rounds := rfl
@[simp] theorem rejectPacket_out : (rejectPacket s).out = s.out := rfl
@[simp] theorem rejectPacket_cur : (rejectPacket s).cur = s.cur := rfl
@[simp] theorem rejectPacket_exh : (rejectPacket s).exh = s.exh := rfl
@[simp] theorem rejectPacket_initd : (rejectPacket s).initd = s.initd := rfl
@[simp] theorem rejectPacket_abrt : (rejectPacket s).abrt = s.abrt := rfl
@[simp] theorem rejectPacket_x : (rejectPacket s).x = s.x := rfl
@[simp] theorem rejectPacket_inbox : (rejectPacket s).inbox = s.inbox := rfl
@[simp] theorem rejectPacket_responses :
    (rejectPacket s).responses = s.responses ++ [[ErrorKind.illegalCommand.status]] := rfl
@[simp] theorem rejectPacket_draws : (rejectPacket s).draws = s.draws := rfl

@[simp] theorem serveByte_w (a : Fin 64) : (serveByte a s).2.w = s.w := rfl
@[simp] theorem serveByte_rounds (a : Fin 64) : (serveByte a s).2.rounds = s.rounds := rfl
@[simp] theorem serveByte_out (a : Fin 64) : (serveByte a s).2.out = s.out := rfl
@[simp] theorem serveByte_cur (a : Fin 64) : (serveByte a s).2.cur = ⟨a.val + 1, by omega⟩ := rfl
@[simp] theorem serveByte_exh (a : Fin 64) : (serveByte a s).2.exh = s.exh := rfl
@[simp] theorem serveByte_initd (a : Fin 64) : (serveByte a s).2.initd = s.initd := rfl
@[simp] theorem serveByte_abrt (a : Fin 64) : (serveByte a s).2.abrt = s.abrt := rfl
@[simp] theorem serveByte_x (a : Fin 64) : (serveByte a s).2.x = s.x := rfl
@[simp] theorem serveByte_inbox (a : Fin 64) : (serveByte a s).2.inbox = s.inbox := rfl
@[simp] theorem serveByte_responses (a : Fin 64) : (serveByte a s).2.responses = s.responses := rfl
@[simp] theorem serveByte_draws (a : Fin 64) : (serveByte a s).2.draws = s.draws := rfl

@[simp] theorem serveByte_byte (a : Fin 64) : (serveByte a s).1 = s.out[a] := rfl

@[simp] theorem wait_eq : wait s = s := rfl

@[simp] theorem withFetchWord_w (nbits v : Nat) :
    (s.withFetchWord nbits v).w = s.w := rfl
@[simp] theorem withFetchWord_rounds (nbits v : Nat) :
    (s.withFetchWord nbits v).rounds = s.rounds := rfl
@[simp] theorem withFetchWord_out (nbits v : Nat) :
    (s.withFetchWord nbits v).out = s.out := rfl
@[simp] theorem withFetchWord_cur (nbits v : Nat) :
    (s.withFetchWord nbits v).cur = s.cur := rfl
@[simp] theorem withFetchWord_exh (nbits v : Nat) :
    (s.withFetchWord nbits v).exh = s.exh := rfl
@[simp] theorem withFetchWord_initd (nbits v : Nat) :
    (s.withFetchWord nbits v).initd = s.initd := rfl
@[simp] theorem withFetchWord_abrt (nbits v : Nat) :
    (s.withFetchWord nbits v).abrt = s.abrt := rfl
@[simp] theorem withFetchWord_x (nbits v : Nat) :
    (s.withFetchWord nbits v).x = s.x := rfl
@[simp] theorem withFetchWord_responses (nbits v : Nat) :
    (s.withFetchWord nbits v).responses = s.responses := rfl
@[simp] theorem withFetchWord_draws (nbits v : Nat) :
    (s.withFetchWord nbits v).draws = s.draws := rfl
@[simp] theorem withFetchWord_inbox (nbits v : Nat) :
    (s.withFetchWord nbits v).inbox = .packet (tablePacket nbits v) :: s.inbox := rfl

end Sys2Proof.Machine
end

