-- ==== Sys2Proof/Laws/Ops.lean ====
section
/-! SUPPORT. One lemma for each shared operation that says what it can do: the common checks, `BLOCK`,
`NEXTBYTE`, the byte loop. -/

namespace Sys2Proof.Machine

theorem commonCheck_aborted (b : Bool) (s : State) (h : s.abrt = true) :
    commonCheck b s = some .aborted := by
  simp [commonCheck, h]

theorem commonCheck_uninit (s : State) (ha : s.abrt = false) (hi : s.initd = false) :
    commonCheck true s = some .notInitialised := by
  simp [commonCheck, ha, hi]

theorem commonCheck_init (s : State) (ha : s.abrt = false) : commonCheck false s = none := by
  simp [commonCheck, ha]

theorem commonCheck_pass (s : State) (ha : s.abrt = false) (hi : s.initd = true) :
    commonCheck true s = none := by
  simp [commonCheck, ha, hi]

/-- What the common checks of GEN, SEEK, READ and XOR can answer. -/
theorem commonCheck_cases (s : State) :
    (s.abrt = true ∧ commonCheck true s = some .aborted) ∨
    (s.abrt = false ∧ s.initd = false ∧ commonCheck true s = some .notInitialised) ∨
    (s.abrt = false ∧ s.initd = true ∧ commonCheck true s = none) := by
  cases ha : s.abrt <;> cases hi : s.initd <;> simp [commonCheck, ha, hi]

/-- What INIT's own checks can answer, in their order. -/
theorem initCheck_cases (rounds : Word) (key nonce : List Byte) :
    (key.length < 32 ∧ initCheck rounds key nonce = some .invalidKeyLength) ∨
    (32 ≤ key.length ∧ nonce.length < 8 ∧
      initCheck rounds key nonce = some .invalidNonceLength) ∨
    (32 ≤ key.length ∧ 8 ≤ nonce.length ∧ (rounds = 0 ∨ rounds.toNat % 2 = 1) ∧
      initCheck rounds key nonce = some .invalidRounds) ∨
    (32 ≤ key.length ∧ 8 ≤ nonce.length ∧ rounds ≠ 0 ∧ rounds.toNat % 2 = 0 ∧
      initCheck rounds key nonce = none) := by
  unfold initCheck Config.keyBytes Config.nonceBytes
  by_cases hk : key.length < 32
  · exact .inl ⟨hk, if_pos hk⟩
  · by_cases hn : nonce.length < 8
    · exact .inr (.inl ⟨by omega, hn, by rw [if_neg hk, if_pos hn]⟩)
    · by_cases hr : rounds = 0 ∨ rounds.toNat % 2 = 1
      · exact .inr (.inr (.inl ⟨by omega, by omega, hr, by rw [if_neg hk, if_neg hn, if_pos hr]⟩))
      · refine .inr (.inr (.inr ⟨by omega, by omega, fun h => hr (.inl h), ?_, ?_⟩))
        · have : ¬rounds.toNat % 2 = 1 := fun h => hr (.inr h)
          omega
        · rw [if_neg hk, if_neg hn, if_neg hr]

theorem block_exhausted (s : State) (h : s.exh = true) : block s = none := by
  simp [block, h]

theorem block_generates (s : State) (h : s.exh = false) : block s = some (generate s) := by
  simp [block, h]

/-- `NEXTBYTE` while `OUT` has unread bytes. -/
theorem nextByte_unread (s : State) (h : s.cur.val < 64) :
    nextByte s = some (serveByte ⟨s.cur.val, h⟩ s) := by
  simp [nextByte, h]

/-- `NEXTBYTE` on an empty buffer. -/
theorem nextByte_refill (s : State) (h : ¬s.cur.val < 64) (he : s.exh = false) :
    nextByte s = some (serveByte 0 (generate s)) := by
  simp [nextByte, h, block_generates s he]

/-- `NEXTBYTE` in state DRY. -/
theorem nextByte_dry (s : State) (h : ¬s.cur.val < 64) (he : s.exh = true) : nextByte s = none := by
  simp [nextByte, h, block_exhausted s he]

/-- Everything `NEXTBYTE` can do. -/
theorem nextByte_cases (s : State) :
    (∃ h : s.cur.val < 64, nextByte s = some (serveByte ⟨s.cur.val, h⟩ s)) ∨
    (¬s.cur.val < 64 ∧ s.exh = false ∧ nextByte s = some (serveByte 0 (generate s))) ∨
    (¬s.cur.val < 64 ∧ s.exh = true ∧ nextByte s = none) := by
  by_cases h : s.cur.val < 64
  · exact .inl ⟨h, nextByte_unread s h⟩
  · cases he : s.exh
    · exact .inr (.inl ⟨h, rfl, nextByte_refill s h he⟩)
    · exact .inr (.inr ⟨h, rfl, nextByte_dry s h he⟩)

theorem drain_zero (s : State) : drain 0 s = ⟨[], false, s⟩ := rfl

theorem drain_dry (n : Nat) (s : State) (h : nextByte s = none) :
    drain (n + 1) s = ⟨[], true, s⟩ := by
  rw [drain, h]

theorem drain_served (n : Nat) (s s' : State) (b : Byte) (h : nextByte s = some (b, s')) :
    drain (n + 1) s = ⟨b :: (drain n s').data, (drain n s').dry, (drain n s').state⟩ := by
  rw [drain, h]

/-- A property that `NEXTBYTE` keeps is kept by the byte loop. -/
theorem drain_keeps (P : State → Prop)
    (hP : ∀ s b s', P s → nextByte s = some (b, s') → P s') :
    ∀ n s, P s → P (drain n s).state
  | 0, _, h => h
  | n + 1, s, h => by
    cases hn : nextByte s with
    | none => rwa [drain_dry n s hn]
    | some r =>
      rw [drain_served n s r.2 r.1 hn]
      exact drain_keeps P hP n r.2 (hP s r.1 r.2 h hn)

/-- What one byte leaves unchanged, whichever way it is served (43_stream_ops.md R160). -/
theorem nextByte_frame (s : State) (b : Byte) (s' : State) (h : nextByte s = some (b, s')) :
    (∀ j (_ : j < 16), j ≠ 12 → j ≠ 13 → s'.w[j] = s.w[j]) ∧ s'.rounds = s.rounds ∧
    s'.initd = s.initd ∧ s'.abrt = s.abrt ∧ s'.inbox = s.inbox ∧ s'.responses = s.responses := by
  rcases nextByte_cases s with ⟨hc, hs⟩ | ⟨hc, he, hs⟩ | ⟨hc, he, hs⟩
  · rw [hs] at h
    obtain rfl := congrArg Prod.snd (Option.some.inj h)
    simp
  · rw [hs] at h
    obtain rfl := congrArg Prod.snd (Option.some.inj h)
    refine ⟨fun j hj h12 h13 => ?_, by simp, by simp, by simp, by simp, by simp⟩
    simpa using ctrInc_get s.w j hj h12 h13
  · rw [hs] at h
    cases h

/-- What the byte loop leaves unchanged. -/
theorem drain_frame (n : Nat) (s : State) :
    (∀ j (_ : j < 16), j ≠ 12 → j ≠ 13 → (drain n s).state.w[j] = s.w[j]) ∧
    (drain n s).state.rounds = s.rounds ∧ (drain n s).state.initd = s.initd ∧
    (drain n s).state.abrt = s.abrt ∧ (drain n s).state.inbox = s.inbox ∧
    (drain n s).state.responses = s.responses := by
  induction n generalizing s with
  | zero => simp [drain_zero]
  | succ n ih =>
    cases hn : nextByte s with
    | none => simp [drain_dry n s hn]
    | some r =>
      obtain ⟨f1, f2, f3, f4, f5, f6⟩ := nextByte_frame s r.1 r.2 hn
      obtain ⟨g1, g2, g3, g4, g5, g6⟩ := ih r.2
      rw [drain_served n s r.2 r.1 hn]
      exact ⟨fun j hj h12 h13 => (g1 j hj h12 h13).trans (f1 j hj h12 h13), g2.trans f2,
        g3.trans f3, g4.trans f4, g5.trans f5, g6.trans f6⟩

theorem bytesLeft_exhausted (s : State) (h : s.exh = true) : bytesLeft s = 64 - s.cur.val := by
  rw [bytesLeft, if_pos h]

theorem bytesLeft_live (s : State) (h : s.exh = false) :
    bytesLeft s = (64 - s.cur.val) + 64 * (2 ^ 64 - (counter s.w).toNat) := by
  rw [bytesLeft, if_neg (by simp [h])]

/-- A byte served is one byte less to come (70_reset_and_hazards.md R218). -/
theorem nextByte_bytesLeft (s : State) (b : Byte) (s' : State) (h : nextByte s = some (b, s')) :
    bytesLeft s = bytesLeft s' + 1 := by
  rcases nextByte_cases s with ⟨hc, hs⟩ | ⟨hc, he, hs⟩ | ⟨hc, he, hs⟩
  · rw [hs] at h
    obtain rfl := congrArg Prod.snd (Option.some.inj h)
    cases he : s.exh
    · rw [bytesLeft_live s he, bytesLeft_live _ (by simpa using he)]
      simp only [serveByte_cur, serveByte_w]
      omega
    · rw [bytesLeft_exhausted s he, bytesLeft_exhausted _ (by simpa using he)]
      simp only [serveByte_cur]
      omega
  · rw [hs] at h
    obtain rfl := congrArg Prod.snd (Option.some.inj h)
    have hcur : s.cur.val = 64 := by have := s.cur.isLt; omega
    simp only [bytesLeft, serveByte_exh, serveByte_cur, serveByte_w, generate_exh, generate_w,
      counter_ctrInc, he, hcur, Bool.false_or]
    have hlt := (counter s.w).isLt
    by_cases hw : ctrWraps s.w = true
    · have hm := (ctrWraps_iff s.w).1 hw
      rw [hw, hm]
      simp [counterMax]
    · have hw' : ctrWraps s.w = false := by simpa using hw
      rw [hw']
      have hne : (counter s.w).toNat ≠ 2 ^ 64 - 1 := by
        intro hn
        apply hw
        rw [ctrWraps_iff]
        apply BitVec.eq_of_toNat_eq
        rw [hn]
        rfl
      have : (counter s.w + 1).toNat = (counter s.w).toNat + 1 := by
        rw [BitVec.toNat_add]
        simp
        omega
      rw [this]
      simp
      omega
  · rw [hs] at h
    cases h

/-- `dry` exactly when nothing is left. -/
theorem nextByte_none_iff (s : State) : nextByte s = none ↔ bytesLeft s = 0 := by
  rcases nextByte_cases s with ⟨hc, hs⟩ | ⟨hc, he, hs⟩ | ⟨hc, he, hs⟩
  · simp only [hs, bytesLeft]
    constructor
    · intro h
      cases h
    · split <;> omega
  · simp only [hs, bytesLeft, he]
    have hlt := (counter s.w).isLt
    constructor
    · intro h
      cases h
    · simp
      omega
  · simp only [hs, bytesLeft, he]
    simp
    omega

/-- How many bytes the byte loop serves, whether it ran dry, and what is left. -/
theorem drain_counts (n : Nat) (s : State) :
    (drain n s).data.length = min n (bytesLeft s) ∧
    ((drain n s).dry = true ↔ bytesLeft s < n) ∧
    bytesLeft (drain n s).state = bytesLeft s - n := by
  induction n generalizing s with
  | zero => simp [drain_zero]
  | succ n ih =>
    cases hn : nextByte s with
    | none =>
      have h0 := (nextByte_none_iff s).1 hn
      simp [drain_dry n s hn, h0]
    | some r =>
      have h1 := nextByte_bytesLeft s r.1 r.2 hn
      obtain ⟨a, b, c⟩ := ih r.2
      rw [drain_served n s r.2 r.1 hn]
      refine ⟨?_, ?_, ?_⟩
      · simp only [List.length_cons, a]
        omega
      · simp only [b]
        omega
      · simp only [c]
        omega

/-- The byte loop ran dry only in state DRY. -/
theorem drain_dry_state (n : Nat) (s : State) (h : (drain n s).dry = true) :
    (drain n s).state.exh = true ∧ (drain n s).state.cur.val = 64 := by
  induction n generalizing s with
  | zero => cases h
  | succ n ih =>
    cases hn : nextByte s with
    | none =>
      rw [drain_dry n s hn]
      rcases nextByte_cases s with ⟨hc, hs⟩ | ⟨hc, he, hs⟩ | ⟨hc, he, hs⟩
      · rw [hn] at hs
        cases hs
      · rw [hn] at hs
        cases hs
      · have := s.cur.isLt
        exact ⟨he, by change s.cur.val = 64; omega⟩
    | some r =>
      rw [drain_served n s r.2 r.1 hn] at h ⊢
      exact ih r.2 h

/-- Splitting the byte loop (43_stream_ops.md R163). -/
theorem drain_add (m n : Nat) (s : State) (h : (drain m s).dry = false) :
    drain (m + n) s =
      ⟨(drain m s).data ++ (drain n (drain m s).state).data, (drain n (drain m s).state).dry,
        (drain n (drain m s).state).state⟩ := by
  induction m generalizing s with
  | zero => simp [drain_zero]
  | succ m ih =>
    cases hn : nextByte s with
    | none =>
      rw [drain_dry m s hn] at h
      cases h
    | some r =>
      rw [drain_served m s r.2 r.1 hn] at h ⊢
      rw [Nat.succ_add, drain_served (m + n) s r.2 r.1 hn, ih r.2 h]
      rfl

end Sys2Proof.Machine
end

