-- ==== Sys2Proof/Laws/PerInstr.lean ====
section
/-! SUPPORT. Facts about every command as syntax, one lemma per constructor: the packet begins with the
opcode of spec/opcode_table.json and has the length of 30_encoding.md R73 to R78. -/

namespace Sys2Proof.Laws.EncodedHead

open Sys2Proof Sys2Proof.Machine

/-- The opcode of a command, and the total length of its packet, as 30_encoding.md R73 to R78 give them. -/
def expected : Instr → Byte × Nat
  | .init _ key nonce => (0x01, 9 + key.length + nonce.length)
  | .gen => (0x02, 1)
  | .seek _ => (0x03, 9)
  | .read _ => (0x04, 5)
  | .xor _ src => (0x05, 9 + src.length)
  | .stat => (0x06, 1)

/-- The packet of a command starts with its opcode and has its length. -/
def Statement (i : Instr) : Prop :=
  (encode i).head? = some (expected i).1 ∧ (encode i).length = (expected i).2

theorem init (rounds : Word) (key nonce : List Byte) : Statement (.init rounds key nonce) := by
  refine ⟨rfl, ?_⟩
  simp only [encode, encodeBody, expected, wordBytes, leBytes, List.length_cons, List.length_append,
    List.length_nil]
  omega

theorem gen : Statement .gen := ⟨rfl, rfl⟩

theorem seek (n : BlockIndex) : Statement (.seek n) := ⟨rfl, rfl⟩

theorem read (k : Word) : Statement (.read k) := ⟨rfl, rfl⟩

theorem xor (dstLen : Word) (src : List Byte) : Statement (.xor dstLen src) := by
  refine ⟨rfl, ?_⟩
  simp only [encode, encodeBody, expected, wordBytes, leBytes, List.length_cons, List.length_append,
    List.length_nil]
  omega

theorem stat : Statement .stat := ⟨rfl, rfl⟩

end Sys2Proof.Laws.EncodedHead
end

