-- ==== Sys2Proof/Laws/Step.lean ====
section
/-! SUPPORT. What each command and each step can do, said once: the provers cite these instead of
unfolding the meanings. -/

namespace Sys2Proof.Machine

/-! ### The commands, case by case -/

theorem execInit_cases (rounds : Word) (key nonce : List Byte) (s : State) :
    (∃ k : ErrorKind, exec (.init rounds key nonce) s = .next (raise k s)) ∨
    (s.abrt = false ∧ 32 ≤ key.length ∧ 8 ≤ nonce.length ∧ rounds ≠ 0 ∧ rounds.toNat % 2 = 0 ∧
      exec (.init rounds key nonce) s =
        .next (respond [statusOk] (construct rounds key nonce s))) := by
  rw [exec, execInit]
  cases ha : s.abrt with
  | true => exact .inl ⟨_, by rw [commonCheck_aborted false s ha]⟩
  | false =>
    rw [commonCheck_init s ha]
    rcases initCheck_cases rounds key nonce with ⟨_, h⟩ | ⟨_, _, h⟩ | ⟨_, _, _, h⟩ |
      ⟨h1, h2, h3, h4, h⟩
    · exact .inl ⟨_, by rw [h]⟩
    · exact .inl ⟨_, by rw [h]⟩
    · exact .inl ⟨_, by rw [h]⟩
    · exact .inr ⟨rfl, h1, h2, h3, h4, by rw [h]⟩

theorem execGen_cases (s : State) :
    (∃ k : ErrorKind, exec .gen s = .next (raise k s)) ∨
    (s.abrt = false ∧ s.initd = true ∧ s.exh = false ∧
      exec .gen s = .next (respond [statusOk] (generate s))) := by
  rw [exec, execGen]
  rcases commonCheck_cases s with ⟨_, h⟩ | ⟨_, _, h⟩ | ⟨ha, hi, h⟩
  · exact .inl ⟨_, by rw [h]⟩
  · exact .inl ⟨_, by rw [h]⟩
  · cases he : s.exh with
    | true => exact .inl ⟨_, by rw [h, block_exhausted s he]⟩
    | false => exact .inr ⟨ha, hi, rfl, by rw [h, block_generates s he]⟩

theorem execSeek_cases (n : BlockIndex) (s : State) :
    (∃ k : ErrorKind, exec (.seek n) s = .next (raise k s)) ∨
    (s.abrt = false ∧ s.initd = true ∧
      exec (.seek n) s = .next (respond [statusOk] (generate (seekTo n s)))) := by
  rw [exec, execSeek]
  rcases commonCheck_cases s with ⟨_, h⟩ | ⟨_, _, h⟩ | ⟨ha, hi, h⟩
  · exact .inl ⟨_, by rw [h]⟩
  · exact .inl ⟨_, by rw [h]⟩
  · exact .inr ⟨ha, hi, by rw [h]⟩

/-- READ past the common checks is the byte loop and its response. -/
theorem execRead_passed (k : Word) (s : State) (ha : s.abrt = false) (hi : s.initd = true) :
    exec (.read k) s = .next (respond (dataResponse
      (if (drain k.toNat s).dry then statusEos else statusOk) (drain k.toNat s).data)
      (drain k.toNat s).state) := by
  rw [exec, execRead, commonCheck_pass s ha hi]

theorem execRead_cases (k : Word) (s : State) :
    (∃ e : ErrorKind, exec (.read k) s = .next (raise e s)) ∨
    (s.abrt = false ∧ s.initd = true ∧
      exec (.read k) s = .next (respond (dataResponse
        (if (drain k.toNat s).dry then statusEos else statusOk) (drain k.toNat s).data)
        (drain k.toNat s).state)) := by
  rcases commonCheck_cases s with ⟨_, h⟩ | ⟨_, _, h⟩ | ⟨ha, hi, _⟩
  · exact .inl ⟨_, by rw [exec, execRead, h]⟩
  · exact .inl ⟨_, by rw [exec, execRead, h]⟩
  · exact .inr ⟨ha, hi, execRead_passed k s ha hi⟩

/-- XOR past its checks, with enough keystream left. -/
theorem execXor_served (dstLen : Word) (src : List Byte) (s : State) (ha : s.abrt = false)
    (hi : s.initd = true) (hl : dstLen.toNat = src.length)
    (hd : (drain src.length s).dry = false) :
    exec (.xor dstLen src) s = .next (respond (dataResponse statusOk
      (List.zipWith xor8 src (drain src.length s).data)) (drain src.length s).state) := by
  rw [exec, execXor, commonCheck_pass s ha hi]
  simp [hl, hd]

/-- XOR past its checks, running dry. -/
theorem execXor_dry (dstLen : Word) (src : List Byte) (s : State) (ha : s.abrt = false)
    (hi : s.initd = true) (hl : dstLen.toNat = src.length)
    (hd : (drain src.length s).dry = true) :
    exec (.xor dstLen src) s =
      .next (raise .keystreamExhausted (latchAbort (drain src.length s).state)) := by
  rw [exec, execXor, commonCheck_pass s ha hi]
  simp [hl, hd]

theorem execXor_cases (dstLen : Word) (src : List Byte) (s : State) :
    (∃ e : ErrorKind, exec (.xor dstLen src) s = .next (raise e s)) ∨
    (s.abrt = false ∧ s.initd = true ∧ dstLen.toNat = src.length ∧
      (drain src.length s).dry = true ∧ exec (.xor dstLen src) s =
        .next (raise .keystreamExhausted (latchAbort (drain src.length s).state))) ∨
    (s.abrt = false ∧ s.initd = true ∧ dstLen.toNat = src.length ∧
      (drain src.length s).dry = false ∧ exec (.xor dstLen src) s =
        .next (respond (dataResponse statusOk (List.zipWith xor8 src (drain src.length s).data))
          (drain src.length s).state)) := by
  rcases commonCheck_cases s with ⟨_, h⟩ | ⟨_, _, h⟩ | ⟨ha, hi, h⟩
  · exact .inl ⟨_, by rw [exec, execXor, h]⟩
  · exact .inl ⟨_, by rw [exec, execXor, h]⟩
  · by_cases hl : dstLen.toNat = src.length
    · cases hd : (drain src.length s).dry with
      | true => exact .inr (.inl ⟨ha, hi, hl, rfl, execXor_dry dstLen src s ha hi hl hd⟩)
      | false => exact .inr (.inr ⟨ha, hi, hl, rfl, execXor_served dstLen src s ha hi hl hd⟩)
    · exact .inl ⟨.lengthMismatch, by rw [exec, execXor, h]; simp [hl]⟩

theorem exec_stat (s : State) : exec .stat s = .next (respond (statResponse s) s) := rfl

/-- While `ABRT = 1` every command but STAT is refused (60_exceptions.md R184). -/
theorem exec_aborted (i : Instr) (s : State) (ha : s.abrt = true) (hi : i ≠ .stat) :
    exec i s = .next (raise .aborted s) := by
  cases i with
  | init r k n => rw [exec, execInit, commonCheck_aborted false s ha]
  | gen => rw [exec, execGen, commonCheck_aborted true s ha]
  | seek n => rw [exec, execSeek, commonCheck_aborted true s ha]
  | read k => rw [exec, execRead, commonCheck_aborted true s ha]
  | xor d src => rw [exec, execXor, commonCheck_aborted true s ha]
  | stat => exact absurd rfl hi

/-! ### Steps -/

theorem takeEvent_cons (s : State) (e : PortEvent) (rest : List PortEvent)
    (h : s.inbox = e :: rest) : takeEvent s = some (e, { s with inbox := rest }) := by
  rw [takeEvent, h]

theorem step_packet_ok (s : State) (cmd : Packet) (rest : List PortEvent) (i : Instr)
    (h : s.inbox = .packet cmd :: rest) (hd : decode cmd = .ok i) :
    step s = exec i { s with inbox := rest } := by
  simp only [step, takeEvent_cons s _ rest h, hd]

theorem step_packet_error (s : State) (cmd : Packet) (rest : List PortEvent) (e : DecodeError)
    (h : s.inbox = .packet cmd :: rest) (hd : decode cmd = .error e) :
    step s = .next (rejectPacket { s with inbox := rest }) := by
  simp only [step, takeEvent_cons s _ rest h, hd]

theorem step_reset (s : State) (c : Option Packet) (rest : List PortEvent)
    (h : s.inbox = .reset c :: rest) : step s = .next (hardwareReset { s with inbox := rest }) := by
  simp only [step, takeEvent_cons s _ rest h]

/-- Everything a step can do. -/
theorem step_cases (s : State) :
    (s.inbox = [] ∧ step s = .next (wait s)) ∨
    (∃ cmd rest i, s.inbox = .packet cmd :: rest ∧ decode cmd = .ok i ∧
      step s = exec i { s with inbox := rest }) ∨
    (∃ cmd rest e, s.inbox = .packet cmd :: rest ∧ decode cmd = .error e ∧
      step s = .next (rejectPacket { s with inbox := rest })) ∨
    (∃ c rest, s.inbox = .reset c :: rest ∧
      step s = .next (hardwareReset { s with inbox := rest })) := by
  cases hb : s.inbox with
  | nil => exact .inl ⟨rfl, by simp only [step, takeEvent, hb]⟩
  | cons e rest =>
    cases e with
    | packet cmd =>
      cases hd : decode cmd with
      | ok i => exact .inr (.inl ⟨cmd, rest, i, rfl, hd, step_packet_ok s cmd rest i hb hd⟩)
      | error e =>
        exact .inr (.inr (.inl ⟨cmd, rest, e, rfl, hd, step_packet_error s cmd rest e hb hd⟩))
    | reset c => exact .inr (.inr (.inr ⟨c, rest, rfl, step_reset s c rest hb⟩))

/-- A table word delivered at the head of the port is what the next step executes. -/
theorem step_withFetchWord (s : State) (nbits v : Nat) (i : Instr)
    (h : decodeTableWord nbits v = some i) : step (s.withFetchWord nbits v) = exec i s := by
  have hd : decode (tablePacket nbits v) = .ok i := by
    unfold decodeTableWord at h
    split at h
    · rename_i j hj
      rw [hj, Option.some.inj h]
    · cases h
  exact step_packet_ok _ (tablePacket nbits v) s.inbox i rfl hd

/-! ### Consequences used often -/

theorem next_inj {s t : State}
    (h : (Host.Outcome.next s : Host.Outcome State Fault Refusal) = .next t) : s = t := by
  cases h
  rfl

theorem generate_sameInstanceWords (s : State) : sameInstanceWords s (generate s) := by
  intro i h12 h13
  simpa using ctrInc_get s.w i.val i.isLt (fun h => h12 (Fin.ext h)) (fun h => h13 (Fin.ext h))

theorem seekTo_sameInstanceWords (n : BlockIndex) (s : State) : sameInstanceWords s (seekTo n s) := by
  intro i h12 h13
  have h1 : (12 : Nat) ≠ i.val := fun h => h12 (Fin.ext h.symm)
  have h2 : (13 : Nat) ≠ i.val := fun h => h13 (Fin.ext h.symm)
  simp [h1, h2]

theorem drain_sameInstanceWords (n : Nat) (s : State) :
    sameInstanceWords s (drain n s).state := by
  intro i h12 h13
  exact (drain_frame n s).1 i.val i.isLt (fun h => h12 (Fin.ext h)) (fun h => h13 (Fin.ext h))

/-- Raising an error changes no register (60_exceptions.md R190). -/
theorem raise_sameRegisters (k : ErrorKind) (s : State) : s.SameRegisters (raise k s) := by
  constructor <;> rfl

theorem respond_sameRegisters (rsp : Packet) (s : State) : s.SameRegisters (respond rsp s) := by
  constructor <;> rfl

/-- Every command answers a next state. -/
theorem exec_next (i : Instr) (s : State) : ∃ t, exec i s = .next t := by
  cases i with
  | init r k n =>
    rcases execInit_cases r k n s with ⟨_, h⟩ | ⟨_, _, _, _, _, h⟩
    · exact ⟨_, h⟩
    · exact ⟨_, h⟩
  | gen =>
    rcases execGen_cases s with ⟨_, h⟩ | ⟨_, _, _, h⟩
    · exact ⟨_, h⟩
    · exact ⟨_, h⟩
  | seek n =>
    rcases execSeek_cases n s with ⟨_, h⟩ | ⟨_, _, h⟩
    · exact ⟨_, h⟩
    · exact ⟨_, h⟩
  | read k =>
    rcases execRead_cases k s with ⟨_, h⟩ | ⟨_, _, h⟩
    · exact ⟨_, h⟩
    · exact ⟨_, h⟩
  | xor d src =>
    rcases execXor_cases d src s with ⟨_, h⟩ | ⟨_, _, _, _, h⟩ | ⟨_, _, _, _, h⟩
    · exact ⟨_, h⟩
    · exact ⟨_, h⟩
    · exact ⟨_, h⟩
  | stat => exact ⟨_, exec_stat s⟩

end Sys2Proof.Machine
end

