-- ==== Sys2Proof/Laws/Stream.lean ====
section
/-! SUPPORT. The byte loop seen as a walk along the keystream: one byte is the keystream byte at the
engine's position, and the position moves on by one. Then the byte loop beside a response, beyond the
end, within one block, and on two alike engines. -/

namespace Sys2Proof.Machine

theorem cur_eq_64 (s : State) (h : ¬s.cur.val < 64) : s.cur.val = 64 := by
  have := s.cur.isLt
  omega

theorem counter_wraps_toNat (w : Words) :
    ctrWraps w = true ↔ (counter w).toNat = 2 ^ 64 - 1 := by
  rw [ctrWraps_iff]
  constructor
  · intro h
    rw [h]
    rfl
  · intro h
    apply BitVec.eq_of_toNat_eq
    rw [h]
    rfl

theorem counter_next_toNat (n : BlockIndex) : (n + 1).toNat = (n.toNat + 1) % 2 ^ 64 := by
  simp [BitVec.toNat_add]

/-- One byte leaves every counter value's word array as it was: only the counter words move. -/
theorem nextByte_setCounter (s : State) (b : Byte) (s' : State) (h : nextByte s = some (b, s'))
    (n : BlockIndex) : setCounter s'.w n = setCounter s.w n := by
  obtain ⟨hw, -⟩ := nextByte_frame s b s' h
  apply Vector.ext
  intro i hi
  simp only [setCounter_get]
  split
  · rfl
  · split
    · rfl
    · exact hw i hi (by omega) (by omega)

/-- The block transform on an initialised engine keeps the invariants, but for `ABRT`, which it is never run
under. -/
theorem generate_inv (s : State) (h : s.Inv) (hi : s.initd = true) (ha : s.abrt = false)
    (he : s.exh = false) : (generate s).Inv where
  sigma _ := by
    obtain ⟨h0, h1, h2, h3⟩ := h.sigma hi
    simp only [generate_w]
    rw [ctrInc_get _ 0 (by decide) (by decide) (by decide),
      ctrInc_get _ 1 (by decide) (by decide) (by decide),
      ctrInc_get _ 2 (by decide) (by decide) (by decide),
      ctrInc_get _ 3 (by decide) (by decide) (by decide)]
    exact ⟨h0, h1, h2, h3⟩
  outIsBlock _ _ := by simp
  counterMoved _ _ hx := by
    rw [generate_exh, he, Bool.false_or] at hx
    rw [generate_w, counter_ctrInc]
    intro hz
    rw [(ctrWraps_iff_next_zero s.w).2 hz] at hx
    cases hx
  exhCounter hx := by
    rw [generate_exh, he, Bool.false_or] at hx
    rw [generate_w, counter_ctrInc]
    exact (ctrWraps_iff_next_zero s.w).1 hx
  uninit hx := by
    rw [generate_initd, hi] at hx
    cases hx
  roundsEven _ := by
    rw [generate_rounds]
    exact h.roundsEven hi
  abortedDry hx := by
    rw [generate_abrt, ha] at hx
    cases hx

/-- Serving an unread byte keeps the invariants. -/
theorem serveByte_inv (s : State) (h : s.Inv) (hi : s.initd = true) (ha : s.abrt = false)
    (hc : s.cur.val < 64) (a : Fin 64) : (serveByte a s).2.Inv where
  sigma := by simpa using h.sigma
  outIsBlock _ _ := by simpa using h.outIsBlock hi hc
  counterMoved _ _ hx := by simpa using h.counterMoved hi hc (by simpa using hx)
  exhCounter := by simpa using h.exhCounter
  uninit hx := by
    rw [serveByte_initd, hi] at hx
    cases hx
  roundsEven := by simpa using h.roundsEven
  abortedDry hx := by
    rw [serveByte_abrt, ha] at hx
    cases hx

theorem nextByte_inv (s : State) (h : s.Inv) (hi : s.initd = true) (ha : s.abrt = false) (b : Byte)
    (s' : State) (hn : nextByte s = some (b, s')) : s'.Inv := by
  rcases nextByte_cases s with ⟨hc, hs⟩ | ⟨hc, he, hs⟩ | ⟨hc, he, hs⟩
  · rw [hs] at hn
    obtain rfl := congrArg Prod.snd (Option.some.inj hn)
    exact serveByte_inv s h hi ha hc _
  · rw [hs] at hn
    obtain rfl := congrArg Prod.snd (Option.some.inj hn)
    exact serveByte_inv _ (generate_inv s h hi ha he) (by simpa using hi) (by simpa using ha)
      (by simp) _
  · rw [hs] at hn
    cases hn

/-- The byte loop keeps the invariants. -/
theorem drain_inv (n : Nat) (s : State) (h : s.Inv) (hi : s.initd = true) (ha : s.abrt = false) :
    (drain n s).state.Inv := by
  refine (drain_keeps (fun t => t.Inv ∧ t.initd = true ∧ t.abrt = false) ?_ n s ⟨h, hi, ha⟩).1
  intro t b t' ⟨ht, hti, hta⟩ hn
  obtain ⟨-, -, f1, f2, -⟩ := nextByte_frame t b t' hn
  exact ⟨nextByte_inv t ht hti hta b t' hn, f1.trans hti, f2.trans hta⟩

/-- The bytes left never exceed the stream, on an engine that keeps the invariants. -/
theorem bytesLeft_le (s : State) (h : s.Inv) (hi : s.initd = true) : bytesLeft s ≤ 2 ^ 70 := by
  cases he : s.exh with
  | true =>
    rw [bytesLeft_exhausted s he]
    omega
  | false =>
    rw [bytesLeft_live s he]
    by_cases hc : s.cur.val < 64
    · have hne := h.counterMoved hi hc he
      have : (counter s.w).toNat ≠ 0 := fun hz => hne (BitVec.eq_of_toNat_eq hz)
      omega
    · omega

/-- A byte served moves the position on by one. -/
theorem nextByte_streamPos (s : State) (h : s.Inv) (hi : s.initd = true) (b : Byte) (s' : State)
    (hn : nextByte s = some (b, s')) : streamPos s' = streamPos s + 1 := by
  have h1 := nextByte_bytesLeft s b s' hn
  have h2 := bytesLeft_le s h hi
  simp only [streamPos]
  omega

/-- The byte served is the keystream byte at the position. -/
theorem nextByte_keystream (s : State) (h : s.Inv) (hi : s.initd = true) (b : Byte) (s' : State)
    (hn : nextByte s = some (b, s')) : b = keystreamByte s.w s.rounds (streamPos s) := by
  rcases nextByte_cases s with ⟨hc, hs⟩ | ⟨hc, he, hs⟩ | ⟨hc, he, hs⟩
  · rw [hs] at hn
    obtain rfl := congrArg Prod.fst (Option.some.inj hn)
    have hout := h.outIsBlock hi hc
    have hp : streamPos s / 64 = (counter s.w - 1).toNat ∧ streamPos s % 64 = s.cur.val := by
      cases he : s.exh with
      | true =>
        have h0 := h.exhCounter he
        have : (counter s.w - 1).toNat = 2 ^ 64 - 1 := by
          rw [h0]
          rfl
        rw [this, streamPos, bytesLeft_exhausted s he]
        omega
      | false =>
        have hne := h.counterMoved hi hc he
        have hn0 : (counter s.w).toNat ≠ 0 := fun hz => hne (BitVec.eq_of_toNat_eq hz)
        have hlt := (counter s.w).isLt
        have : (counter s.w - 1).toNat = (counter s.w).toNat - 1 := by
          rw [BitVec.toNat_sub]
          simp
          omega
        rw [this, streamPos, bytesLeft_live s he]
        omega
    simp only [serveByte_byte, keystreamByte, hp.1, hp.2, hout, BitVec.ofNat_toNat,
      BitVec.setWidth_eq, Fin.getElem_fin]
  · rw [hs] at hn
    obtain rfl := congrArg Prod.fst (Option.some.inj hn)
    have hp : streamPos s / 64 = (counter s.w).toNat ∧ streamPos s % 64 = 0 := by
      have hlt := (counter s.w).isLt
      have hcur := cur_eq_64 s hc
      rw [streamPos, bytesLeft_live s he]
      omega
    simp only [serveByte_byte, keystreamByte, hp.1, hp.2, generate_out, BitVec.ofNat_toNat,
      BitVec.setWidth_eq, setCounter_counter, Fin.getElem_fin]
    rfl
  · rw [hs] at hn
    cases hn

/-! ### The byte loop beside a response, beyond the end, within a block -/

theorem generate_respond (rsp : Packet) (s : State) :
    generate (respond rsp s) = respond rsp (generate s) := by
  simp only [generate, respond]

theorem serveByte_respond (rsp : Packet) (a : Fin 64) (s : State) :
    serveByte a (respond rsp s) = ((serveByte a s).1, respond rsp (serveByte a s).2) := rfl

theorem nextByte_respond (rsp : Packet) (s : State) :
    nextByte (respond rsp s) = (nextByte s).map fun r => (r.1, respond rsp r.2) := by
  rcases nextByte_cases s with ⟨hc, hs⟩ | ⟨hc, he, hs⟩ | ⟨hc, he, hs⟩
  · rw [hs, nextByte_unread (respond rsp s) hc, serveByte_respond]
    rfl
  · rw [hs, nextByte_refill (respond rsp s) hc he, generate_respond, serveByte_respond]
    rfl
  · rw [hs, nextByte_dry (respond rsp s) hc he]
    rfl

theorem drain_respond (rsp : Packet) (n : Nat) (s : State) :
    drain n (respond rsp s) =
      ⟨(drain n s).data, (drain n s).dry, respond rsp (drain n s).state⟩ := by
  induction n generalizing s with
  | zero => rfl
  | succ n ih =>
    cases hn : nextByte s with
    | none =>
      rw [drain_dry n s hn, drain_dry n (respond rsp s) (by rw [nextByte_respond, hn]; rfl)]
    | some r =>
      rw [drain_served n s r.2 r.1 hn,
        drain_served n (respond rsp s) (respond rsp r.2) r.1 (by rw [nextByte_respond, hn]; rfl), ih]

/-- Once dry, a longer byte loop does the same. -/
theorem drain_dry_add (m n : Nat) (s : State) (h : (drain m s).dry = true) :
    drain (m + n) s = drain m s := by
  induction m generalizing s with
  | zero => cases h
  | succ m ih =>
    cases hn : nextByte s with
    | none => rw [Nat.succ_add, drain_dry _ s hn, drain_dry _ s hn]
    | some r =>
      rw [drain_served m s r.2 r.1 hn] at h
      rw [Nat.succ_add, drain_served m s r.2 r.1 hn, drain_served (m + n) s r.2 r.1 hn, ih r.2 h]

/-- With nothing left the byte loop changes nothing. -/
theorem drain_nothing_left (n : Nat) (s : State) (h : bytesLeft s = 0) : (drain n s).state = s := by
  cases n with
  | zero => rfl
  | succ n => rw [drain_dry n s ((nextByte_none_iff s).2 h)]

/-- The byte loop within the block in hand. -/
theorem drain_unread (k : Nat) (s : State) (h : s.cur.val + k ≤ 64) :
    drain k s = ⟨(s.out.toList.drop s.cur.val).take k, false,
      { s with cur := ⟨s.cur.val + k, by omega⟩ }⟩ := by
  induction k generalizing s with
  | zero => simp [drain_zero]
  | succ k ih =>
    have hc : s.cur.val < 64 := by omega
    rw [drain_served k s (serveByte ⟨s.cur.val, hc⟩ s).2 (serveByte ⟨s.cur.val, hc⟩ s).1
      (nextByte_unread s hc), ih _ (by simp; omega)]
    have hl : s.cur.val < s.out.toList.length := by simpa using hc
    congr 1
    · rw [List.drop_eq_getElem_cons hl]
      simp
    · simp [serveByte, Nat.add_assoc, Nat.add_comm 1]

/-- Alike engines with an instance serve the same byte and stay alike. -/
theorem nextByte_alike (s s' : State) (h : s.Alike s') (hi : s.initd = true) :
    (nextByte s = none ∧ nextByte s' = none) ∨
    ∃ r r', nextByte s = some r ∧ nextByte s' = some r' ∧ r.1 = r'.1 ∧ r.2.Alike r'.2 ∧
      r.2.initd = true := by
  rcases nextByte_cases s with ⟨hc, hs⟩ | ⟨hc, he, hs⟩ | ⟨hc, he, hs⟩
  · have hc' : s'.cur.val < 64 := by rw [← h.cur]; exact hc
    refine .inr ⟨_, _, hs, nextByte_unread s' hc', ?_, ?_, hi⟩
    · simp only [serveByte_byte, h.out hi hc, Fin.getElem_fin, h.cur]
    · exact ⟨h.inbox, h.initd, h.exh, h.abrt, by simp [h.cur], h.w, h.rounds,
        fun _ _ => h.out hi hc⟩
  · have hs' := nextByte_refill s' (by rw [← h.cur]; exact hc) (by rw [← h.exh]; exact he)
    refine .inr ⟨_, _, hs, hs', ?_, ?_, by simpa using hi⟩
    · rw [serveByte_byte, serveByte_byte, generate_out, generate_out, h.w hi, h.rounds hi]
    · constructor
      · simpa using h.inbox
      · simpa using h.initd
      · simp [h.exh, h.w hi]
      · simpa using h.abrt
      · rw [serveByte_cur, serveByte_cur]
      · intro _
        simp [h.w hi]
      · intro _
        simpa using h.rounds hi
      · intro _ _
        simp [h.w hi, h.rounds hi]
  · exact .inl ⟨hs, nextByte_dry s' (by rw [← h.cur]; exact hc) (by rw [← h.exh]; exact he)⟩

/-- Alike engines with an instance give the same bytes and stay alike. -/
theorem drain_alike (n : Nat) (s s' : State) (h : s.Alike s') (hi : s.initd = true) :
    (drain n s).data = (drain n s').data ∧ (drain n s).dry = (drain n s').dry ∧
    (drain n s).state.Alike (drain n s').state := by
  induction n generalizing s s' with
  | zero => exact ⟨rfl, rfl, h⟩
  | succ n ih =>
    rcases nextByte_alike s s' h hi with ⟨hn, hn'⟩ | ⟨r, r', hn, hn', hb, ha, ht⟩
    · rw [drain_dry n s hn, drain_dry n s' hn']
      exact ⟨rfl, rfl, h⟩
    · rw [drain_served n s r.2 r.1 hn, drain_served n s' r'.2 r'.1 hn']
      obtain ⟨e1, e2, e3⟩ := ih r.2 r'.2 ha ht
      exact ⟨by rw [e1, hb], e2, e3⟩

end Sys2Proof.Machine
end

