-- ==== Sys2Proof/Tests/Slice0.lean ====
section
/-! SUPPORT. The model's own tests. Expected values come from spec/95_test_vectors.md (section named at each
group) or are written out by hand from the encodings of spec/30_encoding.md. The last part gives, for
every obligation with hypotheses, a state and operands that meet them. -/

namespace Sys2Proof.Tests

open Sys2Proof Sys2Proof.Machine Host

/-- An engine with the all-zero key and nonce, at the state column of 95_test_vectors.md: `INITD EXH ABRT CUR ROUNDS
CTR`; every byte of `OUT` is 0xaa. -/
def engine (initd exh abrt : Bool) (cur : Fin 65) (rounds : Word) (ctr : BlockIndex) : State where
  w := instanceWords [] [] ctr
  rounds := rounds
  out := Vector.replicate 64 0xaa
  cur := cur
  exh := exh
  initd := initd
  abrt := abrt
  x := Vector.replicate 16 0
  inbox := []
  responses := []
  draws := 1

/-- The same engine with `OUT` holding the block before its counter, as R37 wants it. -/
def engineMid (exh : Bool) (cur : Fin 65) (rounds : Word) (ctr : BlockIndex) : State :=
  { engine true exh false cur rounds ctr with out := ksBlock [] [] rounds (ctr - 1) }

/-- The same engine with a packet delivered to its port. -/
def delivered (cmd : Packet) (s : State) : State :=
  { s with inbox := [.packet cmd] }

/-- The last response after an outcome. -/
def answer : Outcome State Fault Refusal → Option Packet
  | .next t => t.responses.getLast?
  | .fault _ => none
  | .refused _ => none

/-- The state column of 95_test_vectors.md. -/
structure Column where
  initd : Bool
  exh : Bool
  abrt : Bool
  cur : Nat
  rounds : Word
  ctr : BlockIndex
  deriving DecidableEq, Repr

/-- `INITD EXH ABRT CUR ROUNDS CTR` after an outcome. -/
def column : Outcome State Fault Refusal → Option Column
  | .next t => some ⟨t.initd, t.exh, t.abrt, t.cur.val, t.rounds, counter t.w⟩
  | .fault _ => none
  | .refused _ => none

/-- The state after an outcome, the given state if there is none. -/
def andThen (o : Outcome State Fault Refusal) (f : State → Outcome State Fault Refusal) :
    Outcome State Fault Refusal :=
  match o with
  | .next t => f t
  | .fault r => .fault r
  | .refused r => .refused r

/-- A packet or block written in hexadecimal. -/
def hex (t : String) : List Byte :=
  (hexBytes t.toList).getD []

def key00to1f : List Byte := hex "000102030405060708090a0b0c0d0e0f101112131415161718191a1b1c1d1e1f"
def nonce00to07 : List Byte := hex "0001020304050607"
def zeroKey : List Byte := List.replicate 32 0x00
def zeroNonce : List Byte := List.replicate 8 0x00

/-! ### WellFormed refuses what the encoding cannot express -/

theorem test_wf_refuses_long_key :
    (Instr.init 20 (List.replicate 65536 0x00) zeroNonce).wf = false := by
  rw [Bool.eq_false_iff, Ne, wf_init_iff, List.length_replicate]
  omega

theorem test_wf_refuses_long_nonce :
    (Instr.init 20 zeroKey (List.replicate 65536 0x00)).wf = false := by
  rw [Bool.eq_false_iff, Ne, wf_init_iff, List.length_replicate]
  omega

theorem test_wf_refuses_long_source :
    (Instr.xor 0 (List.replicate (2 ^ 32) 0x00)).wf = false := by
  rw [Bool.eq_false_iff, Ne, wf_xor_iff, List.length_replicate]
  omega

theorem test_wf_accepts_short_key : (Instr.init 20 [] []).wf = true := by decide

/-! ### Decoding, packets written out from 30_encoding.md R73 to R78 -/

theorem test_decode_init :
    decode ([0x01, 0x08, 0x00, 0x00, 0x80, 0x01, 0x00, 0x02, 0x00, 0xa0, 0xb0, 0xb1]) =
      .ok (.init 0x80000008 [0xa0] [0xb0, 0xb1]) := by decide

theorem test_decode_gen : decode [0b00000010] = .ok .gen := by decide

theorem test_decode_seek :
    decode [0x03, 0x04, 0x03, 0x02, 0x01, 0x08, 0x07, 0x06, 0x05] =
      .ok (.seek 0x0506070801020304) := by decide

theorem test_decode_read : decode [0x04, 0x00, 0x01, 0x00, 0x00] = .ok (.read 256) := by decide

theorem test_decode_xor :
    decode [0x05, 0x03, 0x00, 0x00, 0x00, 0x02, 0x00, 0x00, 0x00, 0x61, 0x62] =
      .ok (.xor 3 [0x61, 0x62]) := by decide

theorem test_decode_stat : decode [0b00000110] = .ok .stat := by decide

theorem test_decode_refuses :
    decode [0x01, 0x14, 0x00, 0x00, 0x00] = .error .wrongLength ∧
    decode [0x02, 0x00] = .error .wrongLength ∧ decode [0x03, 0x00] = .error .wrongLength ∧
    decode [0x04, 0, 0, 0, 0, 0] = .error .wrongLength ∧
    decode [0x05, 2, 0, 0, 0, 2, 0, 0, 0, 0x61] = .error .wrongLength ∧
    decode [0x06, 0x00] = .error .wrongLength ∧ decode [0x00] = .error (.illegalOpcode 0x00) ∧
    decode [0x07] = .error (.illegalOpcode 0x07) ∧
    decode [0xff] = .error (.illegalOpcode 0xff) := by decide

theorem test_encode_seek :
    encode (.seek 0x0506070801020304) = [0x03, 4, 3, 2, 1, 8, 7, 6, 5] := by decide

theorem test_table_words :
    decodeTableWord 8 1 = some (.init 0 [] []) ∧ decodeTableWord 8 2 = some .gen ∧
    decodeTableWord 8 3 = some (.seek 0) ∧ decodeTableWord 8 4 = some (.read 0) ∧
    decodeTableWord 8 5 = some (.xor 0 []) ∧ decodeTableWord 8 6 = some .stat ∧
    decodeTableWord 8 7 = none := by decide

theorem test_fetch_word_runs :
    answer (step (State.reset.withFetchWord 8 1)) = some [0x81] ∧
    answer (step (State.reset.withFetchWord 8 2)) = some [0x86] ∧
    answer (step (State.reset.withFetchWord 8 6)) =
      some [0x00, 0x00, 0x40, 0, 0, 0, 0, 0, 0, 0, 0, 0, 0, 0, 0] := by decide

theorem test_fetch_word_next (v : Nat) (i : Instr) (h : decodeTableWord 8 v = some i) :
    step (State.reset.withFetchWord 8 v) = exec i State.reset :=
  step_withFetchWord State.reset 8 v i h

/-! ### The datapath (95_test_vectors.md sections 2 and 3) -/

theorem test_add32 :
    add32 0xffffffff 0x00000001 = 0 ∧ add32 0x11111111 0x01020304 = 0x12131415 := by decide

theorem test_rotl32 :
    rotl32 0x80000000 7 = 0x00000040 ∧ rotl32 0x12345678 12 = 0x45678123 ∧
    rotl32 0x12345678 7 = 0x1a2b3c09 := by decide

theorem test_qr_positions :
    qr 0 1 0 0 = ⟨0x10001001, 0x88888808, 0x01110110, 0x01100110⟩ ∧
    qr 0 0 1 0 = ⟨0x00001000, 0x08080080, 0x00100001, 0x00100000⟩ ∧
    qr 0 0 0 1 = ⟨0x10000000, 0x80800808, 0x01010010, 0x01000010⟩ := by decide

theorem test_double_round :
    doubleRound #v[0, 1, 2, 3, 4, 5, 6, 7, 8, 9, 10, 11, 12, 13, 14, 15] =
      #v[0xa9295c6a, 0xb471be7a, 0x38e65ec4, 0x74348b87, 0xf1ad76c6, 0x7b44627b, 0x946682b0,
         0xf12f4910, 0xd7e22f80, 0x3232ddd4, 0xb5b3b74d, 0xc0240444, 0xc8a5de45, 0xe417e1d3,
         0x1a392478, 0x983c4ebf] := by decide +kernel

theorem test_counter_carry :
    counter (ctrInc (instanceWords [] [] 0x00000007ffffffff)) = 0x0000000800000000 ∧
    ctrWraps (instanceWords [] [] 0x00000007ffffffff) = false ∧
    ctrWraps (instanceWords [] [] 0xffffffffffffffff) = true := by decide

/-- Section 3.1, the block with outside support. -/
theorem test_block_anchor :
    (ksBlock zeroKey zeroNonce 20 0).toList =
      hex "76b8e0ada0f13d90405d6ae55386bd28bdd219b8a08ded1aa836efcc8b770dc7" ++
      hex "da41597c5157488d7724e03fb8d84a376a43b8f41518a11cc387b669b2ee6586" := by decide +kernel

/-- Section 3.5: every key, nonce and counter word in its place. -/
theorem test_block_key_nonce :
    (ksBlock key00to1f nonce00to07 20 1).toList =
      hex "38008b9a26bc35941e2444177c8ade6689de95264986d95889fb60e84629c9bd" ++
      hex "9a5acb1cc118be563eb9b3a4a472f82e09a7e778492b562ef7130e88dfe031c7" := by decide +kernel

/-- Section 3.3: the high counter word enters the block. -/
theorem test_block_high_counter :
    (ksBlock zeroKey zeroNonce 8 0x0000000100000000).toList =
      hex "1ccc59a06308e05be9d29e7288f166c58f2ee06003047710cbfdb7359da916e8" ++
      hex "43980f2c3bf39df2a3e1f451ba18c37f986ff783075484265819602305557dcd" := by decide +kernel

/-! ### Commands, one step each (95_test_vectors.md sections 5 to 7) -/

theorem test_init_answers :
    answer (exec (.init 20 zeroKey zeroNonce) State.reset) = some [0x00] ∧
    column (exec (.init 20 zeroKey zeroNonce) State.reset) =
      some ⟨true, false, false, 64, 20, 0⟩ ∧
    answer (exec (.init 7 zeroKey (List.replicate 7 0)) State.reset) = some [0x82] ∧
    answer (exec (.init 0xffffffff zeroKey zeroNonce) State.reset) = some [0x85] := by decide

/-- P5 step 17: which key and nonce bytes are used, and where. -/
theorem test_init_words :
    (match exec (.init 2 (key00to1f ++ hex "2021222324252627") (hex "6465666768696a6b6c6d6e6f"))
        State.reset with
      | .next t => some t.w
      | .fault _ => none
      | .refused _ => none) =
      some #v[0x61707865, 0x3320646e, 0x79622d32, 0x6b206574, 0x03020100, 0x07060504, 0x0b0a0908,
        0x0f0e0d0c, 0x13121110, 0x17161514, 0x1b1a1918, 0x1f1e1d1c, 0, 0, 0x67666564,
        0x6b6a6968] := by decide +kernel

theorem test_gen_answers :
    column (exec .gen (engine true false false 0 8 0xFFFFFFFFFFFFFFFF)) =
      some ⟨true, true, false, 0, 8, 0⟩ ∧
    answer (exec .gen (engine true true false 0 8 0)) = some [0x84] ∧
    column (exec .gen (engine true true false 0 8 0)) = some ⟨true, true, false, 0, 8, 0⟩ := by
  decide +kernel

theorem test_seek_carries :
    column (exec (.seek 0xFFFFFFFF) (engine true false false 64 12 0)) =
      some ⟨true, false, false, 0, 12, 0x100000000⟩ ∧
    column (exec (.seek 0) (engine true true false 64 8 0)) =
      some ⟨true, false, false, 0, 8, 1⟩ := by decide +kernel

/-- P6 steps 6 and 7: block 1. -/
theorem test_seek_reads_block :
    answer (andThen (exec (.seek 1) (engine true false false 64 20 0)) (exec (.read 4))) =
      some [0x00, 4, 0, 0, 0, 0x9f, 0x07, 0xe7, 0xbe] := by decide +kernel

/-- Section 6: a read over a block boundary; and the end of the stream. -/
theorem test_read_boundary :
    answer (exec (.read 2) (engineMid false 63 20 1)) = some [0x00, 2, 0, 0, 0, 0x86, 0x9f] ∧
    column (exec (.read 2) (engineMid false 63 20 1)) = some ⟨true, false, false, 1, 20, 2⟩ := by
  decide +kernel

theorem test_read_end :
    answer (exec (.read 10) (engineMid true 60 8 0)) =
      some [0x01, 4, 0, 0, 0, 0x7a, 0x79, 0xe0, 0x14] ∧
    column (exec (.read 10) (engineMid true 60 8 0)) = some ⟨true, true, false, 64, 8, 0⟩ ∧
    answer (exec (.read 1) (engine true true false 64 8 0)) = some [0x01, 0, 0, 0, 0] := by
  decide +kernel

/-- P2 step 2. -/
theorem test_xor_encrypts :
    answer (andThen (exec (.init 20 key00to1f nonce00to07) State.reset)
      (exec (.xor 16 (hex "4368614368612041525820636f726521")))) =
      some ([0x00, 16, 0, 0, 0] ++ hex "b4f0c0ca99f4c628d0487f980b79d254") := by decide +kernel

theorem test_xor_end :
    answer (exec (.xor 1 [0xaa]) (engine true true false 64 8 0)) = some [0x84] ∧
    column (exec (.xor 1 [0xaa]) (engine true true false 64 8 0)) =
      some ⟨true, true, true, 64, 8, 0⟩ ∧
    answer (exec (.xor 2 [0xaa]) (engine true true false 64 8 0)) = some [0x83] ∧
    answer (exec (.xor 3 [0x61, 0x62]) State.reset) = some [0x86] := by decide +kernel

theorem test_stat_answers :
    answer (exec .stat (engine true false false 0 12 0x100000000)) =
      some (hex "0001000c0000000000000001000000") ∧
    answer (exec .stat (engine true true true 64 8 0)) =
      some (hex "000740080000000000000000000000") := by decide +kernel

theorem test_stat_masked :
    answer (exec .stat State.reset) = some (hex "000040000000000000000000000000") := by decide

theorem test_illegal_packet_first :
    answer (step (delivered [0x09] (engine true true true 64 8 0))) = some [0x88] := by decide

theorem test_aborted_init :
    answer (exec (.init 20 [] []) (engine true true true 64 8 0)) = some [0x87] := by decide

theorem test_reset_event :
    column (step { engine true true true 64 8 0 with inbox := [.reset (some [0x02])] }) =
      column (.next { engine false false false 64 8 0 with
        rounds := Config.unspecifiedRounds 1, w := State.unspecifiedW 1 }) := rfl

theorem test_syntax_lines :
    assemble "READ 130".toList = some [.read 130] ∧
    assemble "SEEKBYTE 100".toList = some [.seek 1, .read 36] ∧
    assemble "XOR dst_len".toList = none := by decide

/-! ### Witnesses: every obligation's hypotheses are met, each clause at a boundary value -/

/-- READY, nothing read yet. -/
def ready : State := engine true false false 64 20 0

/-- LAST, 64 bytes left. -/
def lastFull : State := engineMid true 0 8 0

/-- LAST, one byte left. -/
def lastByte : State := engineMid true 63 8 0

/-- DRY. -/
def dry : State := engine true true false 64 8 0

/-- ABORTED. -/
def aborted : State := engine true true true 64 8 0

/-- The counter at its maximum, the last block not yet generated. -/
def atMax : State := engine true false false 64 8 0xFFFFFFFFFFFFFFFF

theorem engineMid_inv (cur : Fin 65) (rounds : Word) (h0 : rounds ≠ 0) (h2 : rounds.toNat % 2 = 0) :
    (engineMid true cur rounds 0).Inv where
  sigma _ := ⟨rfl, rfl, rfl, rfl⟩
  outIsBlock _ _ := by
    simp only [engineMid, engine, ksBlock, counter_instanceWords, setCounter_instanceWords]
  counterMoved _ _ h := by cases h
  exhCounter _ := by simp only [engineMid, engine, counter_instanceWords]
  uninit h := by cases h
  roundsEven _ := ⟨h0, h2⟩
  abortedDry h := by cases h

theorem dry_inv : dry.Inv where
  sigma _ := ⟨rfl, rfl, rfl, rfl⟩
  outIsBlock _ h := absurd h (by decide)
  counterMoved _ _ h := by cases h
  exhCounter _ := by decide
  uninit h := by cases h
  roundsEven _ := by decide
  abortedDry h := by cases h

theorem witness_DecodeOfEncodeIsIdentity :
    (Instr.init 20 zeroKey zeroNonce).wf = true ∧ (Instr.xor 1 [0xaa]).wf = true := by decide

theorem witness_EncodeOfDecodeIsIdentity : decode [0x02] = .ok .gen := by decide

theorem witness_PacketsDecodeExactlyWhenWellFormed :
    (delivered [0x02, 0x00] ready).inbox = .packet [0x02, 0x00] :: [] ∧
    ¬packetWellFormed [0x02, 0x00] ∧ ¬packetWellFormed [] ∧
    ¬packetWellFormed [0x05, 2, 0, 0, 0, 2, 0, 0, 0, 0x61] ∧ packetWellFormed [0x02] := by
  refine ⟨rfl, ?_, ?_, ?_, ?_⟩ <;> unfold packetWellFormed byteAt
  all_goals simp

theorem witness_FixedLengthPacketsDecode :
    decode [0x02] = .ok .gen ∧ decode [0x06] = .ok .stat ∧
    decode [0x04, 0xff, 0xff, 0xff, 0xff] = .ok (.read 0xffffffff) ∧
    decode [0x03, 0, 0, 0, 0, 0, 0, 0, 0x80] = .ok (.seek 0x8000000000000000) := by decide

theorem witness_VariableLengthPacketsDecode_lengths :
    decode [0x01, 2, 0, 0, 0, 0, 0, 1, 0, 0xcc] = .ok (.init 2 [] [0xcc]) ∧
    decode [0x05, 0, 0, 0, 0, 0, 0, 0, 0] = .ok (.xor 0 []) := by decide

theorem witness_VariableLengthPacketsDecode :
    ([0xa0] : List Byte).length = (1 : Byte).toNat + 2 ^ 8 * (0 : Byte).toNat ∧
    (List.replicate 65535 (0 : Byte)).length = (255 : Byte).toNat + 2 ^ 8 * (255 : Byte).toNat ∧
    ([0x61, 0x62] : List Byte).length = (2 : Byte).toNat + 2 ^ 8 * (0 : Byte).toNat +
      2 ^ 16 * (0 : Byte).toNat + 2 ^ 24 * (0 : Byte).toNat := by
  rw [List.length_replicate]
  decide

theorem witness_WordOperationsCompute :
    (1 ≤ 1 ∧ 1 ≤ 31) ∧ (1 ≤ 31 ∧ 31 ≤ 31) ∧ 0 < 32 ∧ 31 < 32 ∧ 7 < 8 := by decide

theorem witness_QuarterRoundComputes :
    (0x12131415 : Word) = add32 0x11111111 0x01020304 ∧
    (0x51721330 : Word) = rotl32 (xor32 0x01234567 0x12131415) 16 ∧
    (0xecff8273 : Word) = add32 0x9b8d6f43 0x51721330 ∧
    (0xd8177edf : Word) = rotl32 (xor32 0x01020304 0xecff8273) 12 ∧
    (0xea2a92f4 : Word) = add32 0x12131415 0xd8177edf ∧
    (0x5881c4bb : Word) = rotl32 (xor32 0x51721330 0xea2a92f4) 8 ∧
    (0x4581472e : Word) = add32 0xecff8273 0x5881c4bb ∧
    (0xcb1cf8ce : Word) = rotl32 (xor32 0xd8177edf 0x4581472e) 7 := by decide

theorem witness_QuarterRoundIsBijective : qr 1 0 0 0 = qr 1 0 0 0 := rfl

theorem witness_QuarterRoundInPlace :
    [(3 : Fin 16), 4, 9, 14].Nodup ∧ (15 : Fin 16) ≠ 3 ∧ (15 : Fin 16) ≠ 4 ∧ (15 : Fin 16) ≠ 9 ∧
    (15 : Fin 16) ≠ 14 := by decide

theorem witness_DisjointQuarterRoundsCommute :
    [(0 : Fin 16), 4, 8, 12, 3, 7, 11, 15].Nodup := by decide

theorem witness_RoundsApplyTheirQuadruples :
    ((3 : Fin 16), (7 : Fin 16), (11 : Fin 16), (15 : Fin 16)) ∈
      [((0 : Fin 16), (4 : Fin 16), (8 : Fin 16), (12 : Fin 16)), (1, 5, 9, 13), (2, 6, 10, 14),
        (3, 7, 11, 15)] ∧
    ((0 : Fin 16), (5 : Fin 16), (10 : Fin 16), (15 : Fin 16)) ∈
      [((0 : Fin 16), (5 : Fin 16), (10 : Fin 16), (15 : Fin 16)), (1, 6, 11, 12), (2, 7, 8, 13),
        (3, 4, 9, 14)] := by decide

theorem witness_PermuteAlternatesRounds : (20 : Word).toNat % 2 = 0 ∧ (2 : Word).toNat % 2 = 0 := by
  decide

theorem witness_PermuteIsBijective : permute ready.w 2 = permute ready.w 2 := rfl

theorem witness_FeedForwardAndSerialize : 0 < 4 ∧ 3 < 4 ∧ 0 < 8 ∧ 7 < 8 := by decide

theorem witness_CounterIncrements :
    (11 : Fin 16) ≠ 12 ∧ (11 : Fin 16) ≠ 13 ∧ (14 : Fin 16) ≠ 12 ∧ (14 : Fin 16) ≠ 13 ∧
    ctrWraps atMax.w = true ∧ ctrWraps ready.w = false := by decide

theorem witness_BlockTransformEffects : dry.exh = true ∧ ready.exh = false := by decide

theorem witness_LastBlockIsValidThenExhausted :
    atMax.exh = false ∧ (counter atMax.w).toNat = 2 ^ 64 - 1 ∧ atMax.initd = true ∧
    atMax.abrt = false := by decide

theorem witness_GenAnswersAndEffects :
    aborted.abrt = true ∧ (State.reset.abrt = false ∧ State.reset.initd = false) ∧
    (dry.abrt = false ∧ dry.initd = true ∧ dry.exh = true) ∧
    (atMax.abrt = false ∧ atMax.initd = true ∧ atMax.exh = false) := by decide

theorem witness_InitAnswersAndEffects :
    aborted.abrt = true ∧ State.reset.abrt = false ∧ (List.replicate 31 (0 : Byte)).length < 32 ∧
    32 ≤ zeroKey.length ∧ (List.replicate 7 (0 : Byte)).length < 8 ∧ 8 ≤ zeroNonce.length ∧
    ((0 : Word).toNat = 0 ∨ (0 : Word).toNat % 2 = 1) ∧
    ((1 : Word).toNat = 0 ∨ (1 : Word).toNat % 2 = 1) ∧
    2 ≤ (2 : Word).toNat ∧ (2 : Word).toNat % 2 = 0 := by decide

theorem witness_InitIgnoresExtraBytes :
    32 ≤ (List.replicate 33 (0 : Byte)).length ∧ 8 ≤ (List.replicate 9 (0 : Byte)).length := by decide

theorem witness_SeekAnswersAndEffects :
    aborted.abrt = true ∧ (State.reset.abrt = false ∧ State.reset.initd = false) ∧
    (dry.abrt = false ∧ dry.initd = true) := by decide

theorem witness_SeekTwiceIsSeekOnce :
    ∃ t u, exec (.seek 5) ready = .next t ∧ exec (.seek 5) t = .next u := by
  obtain ⟨t, ht⟩ := exec_next (.seek 5) ready
  obtain ⟨u, hu⟩ := exec_next (.seek 5) t
  exact ⟨t, u, ht, hu⟩

theorem witness_StatAnswersInEveryState :
    ready.initd = true ∧ State.reset.initd = false ∧ 3 ≤ 3 := by decide

theorem witness_NextByteServesOrRunsDry :
    lastByte.cur.val < 64 ∧ (ready.cur.val = 64 ∧ ready.exh = false) ∧
    (dry.cur.val = 64 ∧ dry.exh = true) := by decide

theorem witness_ReadCompletesAndCounts :
    ready.abrt = false ∧ ready.initd = true ∧ dry.abrt = false ∧ dry.initd = true := by decide

theorem witness_ReadWithinBlock :
    lastByte.abrt = false ∧ lastByte.initd = true ∧ lastByte.cur.val + (1 : Word).toNat ≤ 64 ∧
    dry.cur.val + (0 : Word).toNat ≤ 64 := by decide

theorem witness_ReadDeliversKeystream :
    lastByte.Inv ∧ lastByte.abrt = false ∧ lastByte.initd = true :=
  ⟨engineMid_inv 63 8 (by decide) (by decide), rfl, rfl⟩

theorem witness_SplitReadsDeliverTheSame :
    ∃ t u v, (1 : Word).toNat + (2 : Word).toNat = (3 : Word).toNat ∧ lastByte.abrt = false ∧
      lastByte.initd = true ∧ exec (.read 1) lastByte = .next t ∧ exec (.read 2) t = .next u ∧
      exec (.read 3) lastByte = .next v := by
  obtain ⟨t, ht⟩ := exec_next (.read 1) lastByte
  obtain ⟨u, hu⟩ := exec_next (.read 2) t
  obtain ⟨v, hv⟩ := exec_next (.read 3) lastByte
  exact ⟨t, u, v, by decide, rfl, rfl, ht, hu, hv⟩

theorem witness_EmptyRequestsChangeNothing :
    dry.abrt = false ∧ dry.initd = true ∧ ready.abrt = false ∧ ready.initd = true := by decide

theorem witness_XorIsReadCombinedWithSource :
    lastByte.abrt = false ∧ lastByte.initd = true ∧
    ([0xaa] : List Byte).length = (1 : Word).toNat ∧
    ([0xaa] : List Byte).length ≤ bytesLeft lastByte := by decide

theorem witness_XorBeyondTheEndAborts :
    lastByte.Inv ∧ lastByte.abrt = false ∧ lastByte.initd = true ∧
    ([0xaa, 0xbb] : List Byte).length = (2 : Word).toNat ∧
    bytesLeft lastByte < ([0xaa, 0xbb] : List Byte).length :=
  ⟨engineMid_inv 63 8 (by decide) (by decide), by decide⟩

theorem witness_XorBeyondTheEndAborts_dry :
    dry.Inv ∧ dry.abrt = false ∧ dry.initd = true ∧ ([0xaa] : List Byte).length = (1 : Word).toNat ∧
    bytesLeft dry < ([0xaa] : List Byte).length :=
  ⟨dry_inv, by decide⟩

theorem witness_XorLengthMismatchChangesNothing :
    dry.abrt = false ∧ dry.initd = true ∧ (2 : Word).toNat ≠ ([0xaa] : List Byte).length := by decide

theorem witness_XorUndoesItself :
    lastByte.SameRegisters (respond [0x00] lastByte) ∧ lastByte.abrt = false ∧
    lastByte.initd = true ∧ ([0xaa] : List Byte).length = (1 : Word).toNat ∧
    ([0xaa] : List Byte).length ≤ bytesLeft lastByte :=
  ⟨respond_sameRegisters _ _, by decide⟩

theorem witness_UninitialisedCommandsRefused :
    State.reset.abrt = false ∧ State.reset.initd = false := by decide

theorem witness_AbortedUntilReset :
    aborted.abrt = true ∧ Instr.gen ≠ .stat ∧
    ∃ t, step { aborted with inbox := [.reset none] } = .next t ∧ t.abrt = false :=
  ⟨rfl, by decide, _, step_reset _ none [] rfl, rfl⟩

theorem witness_ErrorsChangeNoRegister :
    (∃ t, exec (.seek 0) State.reset = .next t ∧
      t.responses = State.reset.responses ++ [[0x86]] ∧ 0x80 ≤ (0x86 : Byte).toNat) ∧
    (∃ t, exec (.read 1) dry = .next t ∧ t.responses = dry.responses ++ [[0x01, 0, 0, 0, 0]]) ∧
    (∃ t rsp, exec .stat dry = .next t ∧ t.responses = dry.responses ++ [rsp]) ∧
    (delivered [] aborted).inbox = .packet [] :: [] ∧ ¬packetWellFormed [] ∧
    ∃ t, step (delivered [] aborted) = .next t := by
  refine ⟨⟨_, rfl, rfl, by decide⟩, ⟨_, execRead_passed 1 dry rfl rfl, ?_⟩, ⟨_, _, rfl, rfl⟩, rfl,
    by simp [packetWellFormed], _, step_packet_error _ [] [] .emptyPacket rfl rfl⟩
  rw [show (1 : Word).toNat = 0 + 1 from rfl, drain_dry 0 dry (nextByte_dry dry (by decide) rfl)]
  rfl

theorem witness_OperatingStateTransitions : ∃ t, exec .gen atMax = .next t := exec_next _ _

theorem witness_FlagsChangeOnlyAsGiven :
    (∃ t, exec (.init 20 zeroKey zeroNonce) State.reset = .next t ∧ t.initd = true) ∧
    (∃ t, exec .gen atMax = .next t ∧ t.exh = true) ∧
    (∃ t, exec (.seek 0) dry = .next t ∧ t.exh = false) ∧
    ∃ t, exec (.xor 1 [0xaa]) dry = .next t ∧ t.abrt = true := by
  refine ⟨⟨_, rfl, rfl⟩, ⟨respond [statusOk] (generate atMax), rfl, ?_⟩,
    ⟨respond [statusOk] (generate (seekTo 0 dry)), rfl, ?_⟩, ⟨_, rfl, rfl⟩⟩
  · rw [respond_exh, generate_exh]
    decide
  · rw [respond_exh, generate_exh]
    decide

theorem witness_OnlyInitWritesInstanceWords :
    (∃ t, exec .gen atMax = .next t ∧
      ((∃ r k n, Instr.gen = .init r k n) → t.responses ≠ atMax.responses ++ [[0x00]])) ∧
    ∃ t, exec (.init 1 zeroKey zeroNonce) ready = .next t ∧
      t.responses ≠ ready.responses ++ [[0x00]] := by
  refine ⟨?_, ⟨_, rfl, by decide⟩⟩
  obtain ⟨t, ht⟩ := exec_next .gen atMax
  refine ⟨t, ht, ?_⟩
  rintro ⟨r, k, n, h⟩
  cases h

theorem witness_StepExecutesDecodedCommand :
    (delivered [0x06] ready).inbox = .packet [0x06] :: [] ∧ decode [0x06] = .ok .stat ∧
    (delivered (encode (.read 5)) ready).inbox = .packet (encode (.read 5)) :: [] ∧
    (Instr.read 5).wf = true := by decide

theorem witness_WaitingKeepsAllState : State.reset.inbox = [] := rfl

theorem witness_HardwareResetEffects :
    { ready with inbox := [.reset (some [0x02])] }.inbox = .reset (some [0x02]) :: [] ∧
    ∃ t, step { aborted with inbox := [.reset none] } = .next t ∧
      ((aborted.initd = true ∧ t.initd = false) ∨ (aborted.abrt = true ∧ t.abrt = false)) :=
  ⟨rfl, _, step_reset _ none [] rfl, .inl ⟨rfl, rfl⟩⟩

theorem witness_FirstAnswersAfterReset :
    (State.reset = State.reset ∧ State.reset.inbox = []) ∧ ∃ r : State, hardwareReset aborted = hardwareReset r :=
  ⟨⟨rfl, rfl⟩, aborted, rfl⟩

theorem witness_EveryPacketAnsweredOnce : (delivered [] ready).inbox = .packet [] :: [] := rfl

theorem witness_EveryStepKeepsInvariant :
    lastFull.Inv ∧ ∃ t, step { lastFull with inbox := [.packet [0x02]] } = .next t := by
  refine ⟨engineMid_inv 0 8 (by decide) (by decide), ?_⟩
  rw [step_packet_ok _ [0x02] [] .gen rfl (by decide)]
  exact exec_next _ _

theorem witness_SeekThenReadDeliversKsBlock :
    (∃ t, exec (.init 20 zeroKey zeroNonce) State.reset = .next t ∧
      t.responses = State.reset.responses ++ [[0x00]]) ∧
    (ready.Holds [] [] 20 ∧ (∃ t, exec .gen ready = .next t) ∧
      ∀ r k n, Instr.gen ≠ .init r k n) ∧ ready.abrt = false := by
  refine ⟨⟨_, rfl, rfl⟩, ⟨⟨rfl, ?_, rfl⟩, exec_next _ _, fun _ _ _ h => by cases h⟩, rfl⟩
  simp only [ready, engine, counter_instanceWords]

theorem witness_SeekZeroAfterInitReadsTheSame :
    ∃ t u v x, exec (.init 20 zeroKey zeroNonce) State.reset = .next t ∧
      t.responses = State.reset.responses ++ [[0x00]] ∧ exec (.seek 0) t = .next u ∧
      exec (.read 65) t = .next v ∧ exec (.read 65) u = .next x := by
  obtain ⟨u, hu⟩ := exec_next (.seek 0)
    (respond [statusOk] (construct 20 zeroKey zeroNonce State.reset))
  obtain ⟨v, hv⟩ := exec_next (.read 65)
    (respond [statusOk] (construct 20 zeroKey zeroNonce State.reset))
  obtain ⟨x, hx⟩ := exec_next (.read 65) u
  exact ⟨_, u, v, x, rfl, rfl, hu, hv, hx⟩

theorem witness_SeekByteReachesItsOffset : ready.abrt = false ∧ ready.initd = true := by decide

theorem witness_UnspecifiedContentsNeverShow :
    ready.Alike { ready with x := Vector.replicate 16 1, out := Vector.replicate 64 0xbb } ∧
    (hardwareReset ready).Alike (hardwareReset aborted) := by
  refine ⟨⟨rfl, rfl, rfl, rfl, rfl, fun _ => rfl, fun _ => rfl, fun _ h => absurd h (by decide)⟩,
    ⟨rfl, rfl, rfl, rfl, rfl, fun h => ?_, fun h => ?_, fun h => ?_⟩⟩
  all_goals cases h

theorem witness_StatRevealsOnlyControlState :
    ready.initd = { ready with w := instanceWords key00to1f nonce00to07 0 }.initd ∧
    ready.w[12] = (instanceWords key00to1f nonce00to07 0)[12] ∧
    ready.w[13] = (instanceWords key00to1f nonce00to07 0)[13] := by decide

theorem witness_SameConstructionSameResponses :
    (Instr.init 20 zeroKey zeroNonce).wf = true ∧ 32 ≤ zeroKey.length ∧ 8 ≤ zeroNonce.length ∧
    2 ≤ (20 : Word).toNat ∧ (20 : Word).toNat % 2 = 0 ∧ lastFull.abrt = false ∧
    dry.abrt = false ∧
    (delivered (encode (.init 20 zeroKey zeroNonce)) lastFull).inbox =
      .packet (encode (.init 20 zeroKey zeroNonce)) :: [] ∧
    (delivered (encode (.init 20 zeroKey zeroNonce)) dry).inbox =
      (delivered (encode (.init 20 zeroKey zeroNonce)) lastFull).inbox := by decide

end Sys2Proof.Tests
end

/-! PROOFS. The obligations of 30_encoding.md on which packets decode, and to what (R73 to R79). One reading of
a little-endian field as a sum of bytes, one `↔` for the whole decoder and one for each command carry them. -/

namespace Sys2Proof

open Machine

/-! ### Fields as sums of bytes (30_encoding.md R84) -/

/-- The first byte of a field weighs least. Bytes beyond the packet's end count as zero on both sides, so no
length is asked for. -/
theorem fieldAt_succ (cmd : Packet) (offset size : Nat) :
    fieldAt cmd offset (size + 1) = byteAt cmd offset + 2 ^ 8 * fieldAt cmd (offset + 1) size := by
  by_cases h : offset < cmd.length
  · rw [fieldAt, List.drop_eq_getElem_cons h, List.take_succ_cons, leNat, byteAt,
      List.getD_eq_getElem cmd 0 h]
    rfl
  · have hd : cmd.drop offset = [] := List.drop_eq_nil_of_le (by omega)
    have hd' : cmd.drop (offset + 1) = [] := List.drop_eq_nil_of_le (by omega)
    simp [fieldAt, byteAt, hd, hd', leNat, h]

theorem fieldAt_two (cmd : Packet) (offset : Nat) :
    fieldAt cmd offset 2 = byteAt cmd offset + 2 ^ 8 * byteAt cmd (offset + 1) := by
  have h0 : fieldAt cmd (offset + 1 + 1) 0 = 0 := rfl
  rw [fieldAt_succ, fieldAt_succ, h0, Nat.mul_zero, Nat.add_zero]

theorem fieldAt_four (cmd : Packet) (offset : Nat) :
    fieldAt cmd offset 4 = byteAt cmd offset + 2 ^ 8 * byteAt cmd (offset + 1) +
      2 ^ 16 * byteAt cmd (offset + 2) + 2 ^ 24 * byteAt cmd (offset + 3) := by
  rw [fieldAt_succ, fieldAt_succ, fieldAt_two, Nat.add_assoc offset 1 1, Nat.add_assoc offset 2 1]
  omega

theorem wordAt_toNat (cmd : Packet) (offset : Nat) :
    (wordAt cmd offset).toNat = byteAt cmd offset + 2 ^ 8 * byteAt cmd (offset + 1) +
      2 ^ 16 * byteAt cmd (offset + 2) + 2 ^ 24 * byteAt cmd (offset + 3) := by
  have hlt : fieldAt cmd offset 4 < 2 ^ 32 := fieldAt_lt cmd offset 4
  rw [wordAt, BitVec.toNat_ofNat, Nat.mod_eq_of_lt hlt, fieldAt_four]

/-- A block index is its two halves put together (20_memory.md R53). -/
theorem blockIndex_toNat (n : BlockIndex) :
    n.toNat = (highWord n).toNat * 2 ^ 32 + (lowWord n).toNat := by
  have hn := n.isLt
  simp only [highWord, lowWord, BitVec.extractLsb'_toNat, Nat.shiftRight_eq_div_pow]
  omega

/-! ### What decodes, and to what -/

/-- Every decoder is a length check before its command. -/
theorem lengthChecked_eq_ok_iff {p : Prop} [Decidable p] {e : DecodeError} {i j : Instr} :
    (if p then Except.ok j else Except.error e) = Except.ok i ↔ p ∧ i = j := by
  by_cases h : p
  · simp [h, eq_comm]
  · simp [h]

/-- Opcode, length and command of every packet that decodes: the table of R79 with the fields of R73 to R78. -/
theorem decode_eq_ok_iff (cmd : Packet) (i : Instr) : decode cmd = .ok i ↔
    (cmd.head? = some 0x01 ∧
      (9 ≤ cmd.length ∧ cmd.length = 9 + fieldAt cmd 5 2 + fieldAt cmd 7 2) ∧
      i = .init (wordAt cmd 1) ((cmd.drop 9).take (fieldAt cmd 5 2))
        ((cmd.drop (9 + fieldAt cmd 5 2)).take (fieldAt cmd 7 2))) ∨
    (cmd.head? = some 0x02 ∧ cmd.length = 1 ∧ i = .gen) ∨
    (cmd.head? = some 0x03 ∧ cmd.length = 9 ∧
      i = .seek (joinWords (wordAt cmd 1) (wordAt cmd 5))) ∨
    (cmd.head? = some 0x04 ∧ cmd.length = 5 ∧ i = .read (wordAt cmd 1)) ∨
    (cmd.head? = some 0x05 ∧ (9 ≤ cmd.length ∧ cmd.length = 9 + fieldAt cmd 5 4) ∧
      i = .xor (wordAt cmd 1) ((cmd.drop 9).take (fieldAt cmd 5 4))) ∨
    (cmd.head? = some 0x06 ∧ cmd.length = 1 ∧ i = .stat) := by
  cases cmd with
  | nil => simp [decode]
  | cons op body =>
    rcases decode_cons op body with ⟨rfl, h⟩ | ⟨rfl, h⟩ | ⟨rfl, h⟩ | ⟨rfl, h⟩ | ⟨rfl, h⟩ |
      ⟨rfl, h⟩ | ⟨h1, h2, h3, h4, h5, h6, h⟩
    · rw [h, decodeInit, lengthChecked_eq_ok_iff]; simp
    · rw [h, decodeGen, lengthChecked_eq_ok_iff]; simp
    · rw [h, decodeSeek, lengthChecked_eq_ok_iff]; simp
    · rw [h, decodeRead, lengthChecked_eq_ok_iff]; simp
    · rw [h, decodeXor, lengthChecked_eq_ok_iff]; simp
    · rw [h, decodeStat, lengthChecked_eq_ok_iff]; simp
    · rw [h]
      simp only [List.head?_cons, Option.some.injEq, h1, h2, h3, h4, h5, h6, false_and, or_false,
        reduceCtorEq]

theorem decode_eq_init_iff (cmd : Packet) (rounds : Word) (key nonce : List Byte) :
    decode cmd = .ok (.init rounds key nonce) ↔ cmd.head? = some 0x01 ∧
      (9 ≤ cmd.length ∧ cmd.length = 9 + fieldAt cmd 5 2 + fieldAt cmd 7 2) ∧
      rounds = wordAt cmd 1 ∧ key = (cmd.drop 9).take (fieldAt cmd 5 2) ∧
      nonce = (cmd.drop (9 + fieldAt cmd 5 2)).take (fieldAt cmd 7 2) := by
  simp [decode_eq_ok_iff]

/-- A packet of one byte is known by its opcode. -/
theorem head?_and_length_one_iff (cmd : Packet) (op : Byte) :
    cmd.head? = some op ∧ cmd.length = 1 ↔ cmd = [op] := by
  constructor
  · rintro ⟨hop, hlen⟩
    obtain ⟨b, rfl⟩ := List.length_eq_one_iff.mp hlen
    simpa using hop
  · rintro rfl
    exact ⟨rfl, rfl⟩

theorem decode_eq_gen_iff (cmd : Packet) : decode cmd = .ok .gen ↔ cmd = [0x02] := by
  simp [decode_eq_ok_iff, head?_and_length_one_iff]

theorem decode_eq_seek_iff (cmd : Packet) (n : BlockIndex) :
    decode cmd = .ok (.seek n) ↔ cmd.head? = some 0x03 ∧ cmd.length = 9 ∧
      n = joinWords (wordAt cmd 1) (wordAt cmd 5) := by
  simp [decode_eq_ok_iff]

theorem decode_eq_read_iff (cmd : Packet) (k : Word) :
    decode cmd = .ok (.read k) ↔ cmd.head? = some 0x04 ∧ cmd.length = 5 ∧ k = wordAt cmd 1 := by
  simp [decode_eq_ok_iff]

theorem decode_eq_xor_iff (cmd : Packet) (dstLen : Word) (src : List Byte) :
    decode cmd = .ok (.xor dstLen src) ↔ cmd.head? = some 0x05 ∧
      (9 ≤ cmd.length ∧ cmd.length = 9 + fieldAt cmd 5 4) ∧
      dstLen = wordAt cmd 1 ∧ src = (cmd.drop 9).take (fieldAt cmd 5 4) := by
  simp [decode_eq_ok_iff]

theorem decode_eq_stat_iff (cmd : Packet) : decode cmd = .ok .stat ↔ cmd = [0x06] := by
  simp [decode_eq_ok_iff, head?_and_length_one_iff]

/-! ### O3: the table of well-formed packets (R79, R85) -/

/-- A packet decodes exactly when a row of R79's table holds of it. -/
theorem decodes_iff_packetWellFormed (cmd : Packet) :
    (∃ i, decode cmd = .ok i) ↔ packetWellFormed cmd := by
  simp only [decode_eq_ok_iff, exists_or, exists_and_left, exists_eq, and_true, packetWellFormed,
    fieldAt_two, fieldAt_four]

/-- A step on a packet that does not decode takes it, answers 0x88 and changes no register (R85). -/
theorem step_refuses_packet (s : State) (cmd : Packet) (rest : List PortEvent)
    (hin : s.inbox = .packet cmd :: rest) (hno : ¬∃ i, decode cmd = .ok i) :
    ∃ t, step s = .next t ∧ s.SameRegisters t ∧ t.inbox = rest ∧
      t.responses = s.responses ++ [[0x88]] := by
  cases hd : decode cmd with
  | ok i => exact absurd ⟨i, hd⟩ hno
  | error e =>
    exact ⟨_, step_packet_error s cmd rest e hin hd, ⟨rfl, rfl, rfl, rfl, rfl, rfl, rfl, rfl⟩, rfl, rfl⟩

/-- Settles O3: the decoder's `↔` is R79's table, and what it leaves out a step refuses. -/
theorem packetsDecodeExactlyWhenWellFormed : Obligations.PacketsDecodeExactlyWhenWellFormed := by
  unfold Obligations.PacketsDecodeExactlyWhenWellFormed
  intro cmd
  refine ⟨decodes_iff_packetWellFormed cmd, fun s rest hin hwf => ?_⟩
  exact step_refuses_packet s cmd rest hin (mt (decodes_iff_packetWellFormed cmd).mp hwf)

/-! ### O4: packets of fixed length (R74, R75, R76, R78) -/

/-- Settles O4: each clause is one direction of a command's `↔`; the operands are sums of bytes. -/
theorem fixedLengthPacketsDecode : Obligations.FixedLengthPacketsDecode := by
  unfold Obligations.FixedLengthPacketsDecode
  refine ⟨(decode_eq_gen_iff _).mpr rfl, (decode_eq_stat_iff _).mpr rfl, ?read, ?only, ?seek⟩
  case read =>
    intro b0 b1 b2 b3
    exact ⟨_, (decode_eq_read_iff _ _).mpr ⟨rfl, rfl, rfl⟩, wordAt_toNat _ 1⟩
  case only =>
    intro cmd
    refine ⟨(decode_eq_gen_iff cmd).mp, (decode_eq_stat_iff cmd).mp, fun k h => ?_, fun n h => ?_⟩
    · obtain ⟨hop, hlen, -⟩ := (decode_eq_read_iff cmd k).mp h
      exact ⟨hop, hlen⟩
    · obtain ⟨hop, hlen, -⟩ := (decode_eq_seek_iff cmd n).mp h
      exact ⟨hop, hlen⟩
  case seek =>
    intro b0 b1 b2 b3 b4 b5 b6 b7
    refine ⟨_, (decode_eq_seek_iff _ _).mpr ⟨rfl, rfl, rfl⟩, ?_, ?_, blockIndex_toNat _⟩
    · rw [lowWord_joinWords]
      exact wordAt_toNat _ 1
    · rw [highWord_joinWords]
      exact wordAt_toNat _ 5

/-! ### O5: packets whose length depends on a field (R73, R77) -/

/-- The nine bytes before the key, then key and nonce of the lengths they give, are an INIT packet. -/
theorem decode_initPacket (r0 r1 r2 r3 k0 k1 n0 n1 : Byte) (key nonce : List Byte)
    (hk : key.length = k0.toNat + 2 ^ 8 * k1.toNat)
    (hn : nonce.length = n0.toNat + 2 ^ 8 * n1.toNat) :
    decode ([0x01, r0, r1, r2, r3, k0, k1, n0, n1] ++ key ++ nonce) =
      .ok (.init (wordAt ([0x01, r0, r1, r2, r3, k0, k1, n0, n1] ++ key ++ nonce) 1) key nonce) := by
  have hkey : fieldAt ([0x01, r0, r1, r2, r3, k0, k1, n0, n1] ++ key ++ nonce) 5 2 = key.length :=
    (fieldAt_two _ 5).trans hk.symm
  have hnonce : fieldAt ([0x01, r0, r1, r2, r3, k0, k1, n0, n1] ++ key ++ nonce) 7 2 =
      nonce.length := (fieldAt_two _ 7).trans hn.symm
  rw [decode_eq_init_iff, hkey, hnonce, ← List.drop_drop]
  refine ⟨rfl, ⟨?_, ?_⟩, rfl, ?_, ?_⟩
  · simp
  · simp only [List.length_append, List.length_cons, List.length_nil]
  · simp
  · simp

/-- The nine bytes before the source, then a source of the length they give, are an XOR packet. -/
theorem decode_xorPacket (d0 d1 d2 d3 l0 l1 l2 l3 : Byte) (src : List Byte)
    (hl : src.length = l0.toNat + 2 ^ 8 * l1.toNat + 2 ^ 16 * l2.toNat + 2 ^ 24 * l3.toNat) :
    decode ([0x05, d0, d1, d2, d3, l0, l1, l2, l3] ++ src) =
      .ok (.xor (wordAt ([0x05, d0, d1, d2, d3, l0, l1, l2, l3] ++ src) 1) src) := by
  have hsrc : fieldAt ([0x05, d0, d1, d2, d3, l0, l1, l2, l3] ++ src) 5 4 = src.length :=
    (fieldAt_four _ 5).trans hl.symm
  rw [decode_eq_xor_iff, hsrc]
  refine ⟨rfl, ⟨?_, ?_⟩, rfl, ?_⟩
  · simp
  · simp only [List.length_append, List.length_cons, List.length_nil]
  · simp

theorem head_and_length_of_decode_eq_init (cmd : Packet) (rounds : Word) (key nonce : List Byte)
    (h : decode cmd = .ok (.init rounds key nonce)) :
    cmd.head? = some 0x01 ∧ cmd.length = 9 + key.length + nonce.length := by
  obtain ⟨hop, ⟨-, hlen⟩, -, rfl, rfl⟩ := (decode_eq_init_iff cmd rounds key nonce).mp h
  refine ⟨hop, ?_⟩
  simp only [List.length_take, List.length_drop]
  omega

theorem head_and_length_of_decode_eq_xor (cmd : Packet) (dstLen : Word) (src : List Byte)
    (h : decode cmd = .ok (.xor dstLen src)) :
    cmd.head? = some 0x05 ∧ cmd.length = 9 + src.length := by
  obtain ⟨hop, ⟨-, hlen⟩, -, rfl⟩ := (decode_eq_xor_iff cmd dstLen src).mp h
  refine ⟨hop, ?_⟩
  simp only [List.length_take, List.length_drop]
  omega

/-- Settles O5: the INIT and XOR packets built from their fields, and the shape of every packet decoding to one. -/
theorem variableLengthPacketsDecode : Obligations.VariableLengthPacketsDecode := by
  unfold Obligations.VariableLengthPacketsDecode
  refine ⟨?init, head_and_length_of_decode_eq_init, head_and_length_of_decode_eq_xor, ?xor⟩
  case init =>
    intro r0 r1 r2 r3 k0 k1 n0 n1 key nonce hk hn
    exact ⟨_, decode_initPacket r0 r1 r2 r3 k0 k1 n0 n1 key nonce hk hn, wordAt_toNat _ 1⟩
  case xor =>
    intro d0 d1 d2 d3 l0 l1 l2 l3 src hl
    exact ⟨_, decode_xorPacket d0 d1 d2 d3 l0 l1 l2 l3 src hl, wordAt_toNat _ 1⟩

end Sys2Proof

/-! PROOFS. The obligations of 40_arx_datapath.md on the word operations, the quarter round, the rounds, the
feed-forward, the serialisation and the counter. A round is read as quarter rounds at a list of disjoint
quadruples, and the counter through the two halves of a block index. -/

namespace Sys2Proof.Machine

/-! ### Word operations (R100 to R103) -/

@[simp] theorem add32_toNat (a b : Word) : (add32 a b).toNat = (a.toNat + b.toNat) % 2 ^ 32 :=
  BitVec.toNat_add a b

theorem xor32_getLsbD (a b : Word) (i : Nat) :
    (xor32 a b).getLsbD i = (a.getLsbD i ^^ b.getLsbD i) :=
  BitVec.getLsbD_xor

theorem xor8_getLsbD (a b : Byte) (i : Nat) :
    (xor8 a b).getLsbD i = (a.getLsbD i ^^ b.getLsbD i) :=
  BitVec.getLsbD_xor

/-- The two halves of a rotation do not overlap, so their bitwise or is their sum. -/
theorem rotl32_toNat (v : Word) (n : Nat) (hn : n < 32) :
    (rotl32 v n).toNat = v.toNat * 2 ^ n % 2 ^ 32 + v.toNat / 2 ^ (32 - n) := by
  have hpow : 2 ^ 32 = 2 ^ (32 - n) * 2 ^ n := by rw [← pow_add, Nat.sub_add_cancel hn.le]
  have hhigh : v.toNat * 2 ^ n % 2 ^ 32 = (v.toNat % 2 ^ (32 - n)) <<< n := by
    rw [hpow, Nat.mul_mod_mul_right, Nat.shiftLeft_eq]
  have hlow : v.toNat / 2 ^ (32 - n) < 2 ^ n :=
    Nat.div_lt_of_lt_mul (hpow ▸ v.isLt)
  rw [rotl32, BitVec.toNat_rotateLeft, Nat.mod_eq_of_lt hn, Nat.shiftLeft_eq,
    Nat.shiftRight_eq_div_pow, hhigh, Nat.shiftLeft_add_eq_or_of_lt hlow]

theorem rotl32_getLsbD (v : Word) (n i : Nat) (hn : n < 32) (hi : i < 32) :
    (rotl32 v n).getLsbD ((i + n) % 32) = v.getLsbD i := by
  rw [rotl32, BitVec.getLsbD_rotateLeft_of_le hn]
  by_cases hwrap : i + n < 32
  · have hpos : (i + n) % 32 = i + n := Nat.mod_eq_of_lt hwrap
    simp [hpos, hwrap]
  · have hpos : (i + n) % 32 = i + n - 32 := by omega
    have hlt : i + n - 32 < n := by omega
    have hback : 32 - n + (i + n - 32) = i := by omega
    simp [hpos, hlt, hback]

/-- Settles O8: the four word operations as numbers and bit by bit. -/
theorem wordOperationsCompute : Obligations.WordOperationsCompute := by
  unfold Obligations.WordOperationsCompute
  refine ⟨add32_toNat, fun a b i _ => xor32_getLsbD a b i, fun a b i _ => xor8_getLsbD a b i, ?_⟩
  intro v n _ hn
  have hlt : n < 32 := by omega
  exact ⟨rotl32_toNat v n hlt, fun i hi => rotl32_getLsbD v n i hlt hi⟩

/-! ### The quarter round (R104, R106) -/

/-- Settles O9: the four lines in order are the definition, and the listed values are computed. -/
theorem quarterRoundComputes : Obligations.QuarterRoundComputes := by
  unfold Obligations.QuarterRoundComputes
  refine ⟨?lines, by decide, by decide, by decide, by decide⟩
  case lines =>
    rintro a b c d _ _ _ _ _ _ _ _ rfl rfl rfl rfl rfl rfl rfl rfl
    rfl

/-- `QRX` keeps every entry at an index that is none of its four. -/
theorem qrx_get_of_ne (x : Words) (ia ib ic id j : Fin 16)
    (ha : j ≠ ia) (hb : j ≠ ib) (hc : j ≠ ic) (hd : j ≠ id) :
    (qrx x ia ib ic id)[j] = x[j] := by
  simp [qrx_get, Fin.val_inj, ha.symm, hb.symm, hc.symm, hd.symm]

/-- At distinct indices none of the four writes of `QRX` is overwritten by a later one. -/
theorem qrx_quad (x : Words) (ia ib ic id : Fin 16) (hab : ia ≠ ib) (hac : ia ≠ ic)
    (had : ia ≠ id) (hbc : ib ≠ ic) (hbd : ib ≠ id) (hcd : ic ≠ id) :
    (⟨(qrx x ia ib ic id)[ia], (qrx x ia ib ic id)[ib], (qrx x ia ib ic id)[ic],
      (qrx x ia ib ic id)[id]⟩ : Quad) = qr x[ia] x[ib] x[ic] x[id] := by
  simp [qrx_get, Fin.val_inj, hab.symm, hac.symm, had.symm, hbc.symm, hbd.symm, hcd.symm]

/-- Settles O11: the four entries become the quarter round of their old values, the rest stay. -/
theorem quarterRoundInPlace : Obligations.QuarterRoundInPlace := by
  unfold Obligations.QuarterRoundInPlace
  intro x ia ib ic id hab hac had hbc hbd hcd
  exact ⟨qrx_quad x ia ib ic id hab hac had hbc hbd hcd, qrx_get_of_ne x ia ib ic id⟩

/-! ### Rounds (R107 to R110) -/

/-- The indices `(ia, ib, ic, id)` of one quarter round. -/
abbrev QuadIndex := Fin 16 × Fin 16 × Fin 16 × Fin 16

/-- The four indices of a quadruple, in order. -/
def QuadIndex.toList (q : QuadIndex) : List (Fin 16) :=
  [q.1, q.2.1, q.2.2.1, q.2.2.2]

/-- The four entries of an array at a quadruple. -/
def quadAt (x : Words) (q : QuadIndex) : Quad :=
  ⟨x[q.1], x[q.2.1], x[q.2.2.1], x[q.2.2.2]⟩

/-- `QR` of four words given together. -/
def Quad.qr (q : Quad) : Quad :=
  Machine.qr q.a q.b q.c q.d

/-- `QRX` at a quadruple. -/
def qrxAt (x : Words) (q : QuadIndex) : Words :=
  qrx x q.1 q.2.1 q.2.2.1 q.2.2.2

/-- The quadruples `COLS` (R108). -/
def cols : List QuadIndex :=
  [(0, 4, 8, 12), (1, 5, 9, 13), (2, 6, 10, 14), (3, 7, 11, 15)]

/-- The quadruples `DIAGS` (R109). -/
def diags : List QuadIndex :=
  [(0, 5, 10, 15), (1, 6, 11, 12), (2, 7, 8, 13), (3, 4, 9, 14)]

theorem colRound_eq_foldl (x : Words) : colRound x = cols.foldl qrxAt x := rfl

theorem diagRound_eq_foldl (x : Words) : diagRound x = diags.foldl qrxAt x := rfl

theorem qrxAt_get_of_notMem (x : Words) (q : QuadIndex) (j : Fin 16) (hj : j ∉ q.toList) :
    (qrxAt x q)[j] = x[j] := by
  simp only [QuadIndex.toList, List.mem_cons, List.not_mem_nil, or_false, not_or] at hj
  obtain ⟨ha, hb, hc, hd⟩ := hj
  exact qrx_get_of_ne x _ _ _ _ j ha hb hc hd

theorem quadAt_qrxAt (x : Words) (q : QuadIndex) (hq : q.toList.Nodup) :
    quadAt (qrxAt x q) q = (quadAt x q).qr := by
  simp only [QuadIndex.toList, List.nodup_cons, List.mem_cons, List.not_mem_nil, or_false,
    not_or] at hq
  obtain ⟨⟨hab, hac, had⟩, ⟨hbc, hbd⟩, hcd, -⟩ := hq
  exact qrx_quad x _ _ _ _ hab hac had hbc hbd hcd

theorem foldl_qrxAt_get_of_notMem (qs : List QuadIndex) (x : Words) (j : Fin 16)
    (hj : j ∉ qs.flatMap QuadIndex.toList) : (qs.foldl qrxAt x)[j] = x[j] := by
  induction qs generalizing x with
  | nil => rfl
  | cons p qs ih =>
    rw [List.flatMap_cons, List.mem_append, not_or] at hj
    rw [List.foldl_cons, ih _ hj.2, qrxAt_get_of_notMem x p j hj.1]

/-- Arrays that agree at the four indices of a quadruple have the same entries there. -/
theorem quadAt_congr (x y : Words) (q : QuadIndex) (h : ∀ j ∈ q.toList, x[j] = y[j]) :
    quadAt x q = quadAt y q := by
  simp only [QuadIndex.toList, List.forall_mem_cons] at h
  obtain ⟨ha, hb, hc, hd, -⟩ := h
  simp only [quadAt, ha, hb, hc, hd]

/-- When no index occurs twice, each quadruple ends as the quarter round of the entries the array started with:
the quarter rounds before it do not touch its operands, and those after it do not touch its results. -/
theorem quadAt_foldl_qrxAt (qs : List QuadIndex) (x : Words)
    (hqs : (qs.flatMap QuadIndex.toList).Nodup) (q : QuadIndex) (hq : q ∈ qs) :
    quadAt (qs.foldl qrxAt x) q = (quadAt x q).qr := by
  induction qs generalizing x with
  | nil => cases hq
  | cons p qs ih =>
    rw [List.flatMap_cons, List.nodup_append'] at hqs
    obtain ⟨hp, htail, hdisj⟩ := hqs
    rw [List.foldl_cons]
    obtain rfl | hmem := List.mem_cons.mp hq
    · rw [← quadAt_qrxAt x q hp]
      exact quadAt_congr _ _ q fun j hj => foldl_qrxAt_get_of_notMem qs _ j (hdisj hj)
    · have hkeep : quadAt (qrxAt x p) q = quadAt x q :=
        quadAt_congr _ _ q fun j hj => qrxAt_get_of_notMem x p j fun hjp =>
          hdisj hjp (List.mem_flatMap.mpr ⟨q, hmem, hj⟩)
      rw [ih _ htail hmem, hkeep]

/-- The entries of an array at a quadruple, read off one index at a time. -/
theorem get_of_quadAt_eq (y : Words) (q : QuadIndex) (r : Quad) (h : quadAt y q = r) (j : Fin 16) :
    (j = q.1 → y[j] = r.a) ∧ (j = q.2.1 → y[j] = r.b) ∧
      (j = q.2.2.1 → y[j] = r.c) ∧ (j = q.2.2.2 → y[j] = r.d) := by
  subst h
  refine ⟨?_, ?_, ?_, ?_⟩ <;> rintro rfl <;> rfl

/-- Settles O13: both rounds by `quadAt_foldl_qrxAt`, and their listed values by evaluation. -/
theorem roundsApplyTheirQuadruples : Obligations.RoundsApplyTheirQuadruples := by
  unfold Obligations.RoundsApplyTheirQuadruples
  refine ⟨?cols, ?diags, fun _ => rfl, by decide, by decide, by decide,
    by decide⟩
  case cols =>
    intro x j q hq
    rw [colRound_eq_foldl]
    exact get_of_quadAt_eq _ q _ (quadAt_foldl_qrxAt cols x (by decide) q hq) j
  case diags =>
    intro x j q hq
    rw [diagRound_eq_foldl]
    exact get_of_quadAt_eq _ q _ (quadAt_foldl_qrxAt diags x (by decide) q hq) j

/-! ### Feed-forward and serialisation (R113, R114; 20_memory.md R51) -/

theorem serialize_getLsbD (y : Words) (i : Fin 16) (m b : Nat) (hm : m < 4) (hb : b < 8) :
    ((serialize y)[4 * i.val + m]'(by omega)).getLsbD b = y[i].getLsbD (8 * m + b) := by
  have hword : (4 * i.val + m) / 4 = i.val := by omega
  have hbyte : (4 * i.val + m) % 4 = m := by omega
  simp [hword, hbyte, hb]

/-- Settles O16: the sixteen sums word by word, and the serialised block bit by bit. -/
theorem feedForwardAndSerialize : Obligations.FeedForwardAndSerialize := by
  unfold Obligations.FeedForwardAndSerialize
  intro x w i
  exact ⟨feedForward_get x w i.val i.isLt, fun m hm b hb => serialize_getLsbD x i m b hm hb⟩

/-! ### The counter increment (R115) -/

theorem lowWord_toNat (n : BlockIndex) : (lowWord n).toNat = n.toNat % 2 ^ 32 := by
  simp [lowWord]

theorem highWord_toNat (n : BlockIndex) : (highWord n).toNat = n.toNat / 2 ^ 32 := by
  have hn := n.isLt
  simp only [highWord, BitVec.extractLsb'_toNat, Nat.shiftRight_eq_div_pow]
  omega

theorem add32_one_toNat (a : Word) : (add32 a 1).toNat = (a.toNat + 1) % 2 ^ 32 :=
  add32_toNat a 1

theorem lowWord_add_one (n : BlockIndex) : lowWord (n + 1) = add32 (lowWord n) 1 := by
  apply BitVec.eq_of_toNat_eq
  rw [add32_one_toNat, lowWord_toNat, lowWord_toNat, counter_next_toNat]
  omega

/-- The new low word is zero exactly when the addition carries out of the low half. -/
theorem add32_lowWord_one_eq_zero_iff (n : BlockIndex) :
    add32 (lowWord n) 1 = 0 ↔ (n.toNat + 1) % 2 ^ 32 = 0 := by
  rw [← BitVec.toNat_inj, add32_one_toNat, lowWord_toNat, Nat.mod_add_mod]
  rfl

theorem highWord_add_one (n : BlockIndex) :
    highWord (n + 1) = if add32 (lowWord n) 1 = 0 then add32 (highWord n) 1 else highWord n := by
  have hn := n.isLt
  rw [if_congr (add32_lowWord_one_eq_zero_iff n) rfl rfl]
  apply BitVec.eq_of_toNat_eq
  split
  case isTrue hcarry =>
    rw [add32_one_toNat, highWord_toNat, highWord_toNat, counter_next_toNat]
    omega
  case isFalse hcarry =>
    rw [highWord_toNat, highWord_toNat, counter_next_toNat]
    omega

theorem counter_toNat (w : Words) : (counter w).toNat = w[13].toNat * 2 ^ 32 + w[12].toNat := by
  rw [blockIndex_toNat, counter, highWord_joinWords, lowWord_joinWords]

theorem ctrInc_get_12 (w : Words) : (ctrInc w)[12] = add32 w[12] 1 := by
  have hnew : (ctrInc w)[12] = lowWord (counter w + 1) := by simp [ctrInc]
  rw [hnew, lowWord_add_one, counter, lowWord_joinWords]

theorem ctrInc_get_13 (w : Words) :
    (ctrInc w)[13] = if add32 w[12] 1 = 0 then add32 w[13] 1 else w[13] := by
  have hnew : (ctrInc w)[13] = highWord (counter w + 1) := by simp [ctrInc]
  rw [hnew, highWord_add_one, counter, lowWord_joinWords, highWord_joinWords]

theorem counter_eq_zero_iff (w : Words) : counter w = 0 ↔ w[12] = 0 ∧ w[13] = 0 := by
  have hzero : counter w = 0 ↔ (counter w).toNat = 0 := BitVec.toNat_inj.symm
  have hlow : w[12] = 0 ↔ w[12].toNat = 0 := BitVec.toNat_inj.symm
  have hhigh : w[13] = 0 ↔ w[13].toNat = 0 := BitVec.toNat_inj.symm
  rw [hzero, hlow, hhigh, counter_toNat]
  omega

theorem ctrWraps_iff_words_zero (w : Words) :
    ctrWraps w = true ↔ (ctrInc w)[12] = 0 ∧ (ctrInc w)[13] = 0 := by
  rw [ctrWraps_iff_next_zero, ← counter_ctrInc, counter_eq_zero_iff]

/-- Settles O17: the counter as one number, its two new words, both readings of the wrap, and the frame. -/
theorem counterIncrements : Obligations.CounterIncrements := by
  unfold Obligations.CounterIncrements
  intro w
  refine ⟨counter_toNat w, ?next, ctrInc_get_12 w, ctrInc_get_13 w, counter_wraps_toNat w,
    ctrWraps_iff_words_zero w, ?frame⟩
  case next =>
    rw [counter_ctrInc, counter_next_toNat]
  case frame =>
    intro j h12 h13
    exact ctrInc_get w j.val j.isLt (Fin.val_ne_of_ne h12) (Fin.val_ne_of_ne h13)

end Sys2Proof.Machine

/-! PROOFS. The obligations of 41_block_transform.md on the last block (R132) and on GEN (R135). What the block
transform does to the counter and `EXH` is said first; then what READ and XOR make of one whole block. -/

namespace Sys2Proof.Machine

/-! ### The counter and `EXH` after the block transform (R130) -/

theorem generate_exh_iff (s : State) (he : s.exh = false) :
    (generate s).exh = true ↔ (counter s.w).toNat = 2 ^ 64 - 1 := by
  rw [generate_exh, he, Bool.false_or, counter_wraps_toNat]

theorem generate_counter_toNat (s : State) :
    (counter (generate s).w).toNat = ((counter s.w).toNat + 1) % 2 ^ 64 := by
  rw [generate_w, counter_ctrInc, counter_next_toNat]

/-- The block of counter `2^64 - 1` leaves the counter at zero (R132). -/
theorem generate_last_counter (s : State) (hlast : (counter s.w).toNat = 2 ^ 64 - 1) :
    counter (generate s).w = 0 := by
  rw [generate_w, counter_ctrInc, ← ctrWraps_iff_next_zero, counter_wraps_toNat]
  exact hlast

/-! ### Serving one whole block (43_stream_ops.md R162, R165) -/

/-- Sixty-four bytes from the start of a block are the block, and only `CUR` moves. -/
theorem drain_whole_block (s : State) (hc : s.cur = 0) :
    drain 64 s = ⟨s.out.toList, false, { s with cur := 64 }⟩ := by
  simp [drain_unread 64 s (by simp [hc]), hc]

theorem zipWith_xor8_replicate_zero (bs : List Byte) :
    List.zipWith xor8 (List.replicate bs.length 0x00) bs = bs := by
  induction bs with
  | nil => rfl
  | cons b bs ih => simpa [List.replicate_succ, xor8] using ih

theorem dataResponse_block (b : Block) :
    dataResponse statusOk b.toList = [0x00, 64, 0, 0, 0] ++ b.toList := by
  rw [dataResponse, Vector.length_toList]
  rfl

/-- READ of a whole unread block delivers it. -/
theorem execRead_whole_block (s : State) (hc : s.cur = 0) (ha : s.abrt = false)
    (hi : s.initd = true) :
    exec (.read 64) s =
      .next (respond ([0x00, 64, 0, 0, 0] ++ s.out.toList) { s with cur := 64 }) := by
  have hd : drain (64 : Word).toNat s = _ := drain_whole_block s hc
  rw [execRead_passed 64 s ha hi, hd, ← dataResponse_block]
  rfl

/-- XOR of 64 zero bytes with a whole unread block delivers the block. -/
theorem execXor_zeros_whole_block (s : State) (hc : s.cur = 0) (ha : s.abrt = false)
    (hi : s.initd = true) :
    exec (.xor 64 (List.replicate 64 0x00)) s =
      .next (respond ([0x00, 64, 0, 0, 0] ++ s.out.toList) { s with cur := 64 }) := by
  have hd : drain (List.replicate 64 (0x00 : Byte)).length s = _ := drain_whole_block s hc
  have hz : List.zipWith xor8 (List.replicate 64 0x00) s.out.toList = s.out.toList := by
    simpa using zipWith_xor8_replicate_zero s.out.toList
  rw [execXor_served 64 _ s ha hi rfl (by rw [hd]), hd, hz, dataResponse_block]

/-! ### O19: the block of counter `2^64 - 1` (R132) -/

/-- Settles O19: the wrap sets `EXH` without spoiling the block, and serving all of it only moves `CUR`. -/
theorem lastBlockIsValidThenExhausted : Obligations.LastBlockIsValidThenExhausted := by
  unfold Obligations.LastBlockIsValidThenExhausted
  intro s he hlast
  have hexh : (generate s).exh = true := (generate_exh_iff s he).2 hlast
  have hfail : ∀ rsp, block (respond rsp { generate s with cur := 64 }) = none :=
    fun _ => block_exhausted _ hexh
  refine ⟨generate s, block_generates s he, generate_out s, generate_last_counter s hlast, hexh,
    generate_cur s, block_exhausted _ hexh, ?served⟩
  case served =>
    intro hi ha
    rw [← generate_initd] at hi
    rw [← generate_abrt] at ha
    rw [← generate_responses]
    exact ⟨⟨_, execRead_whole_block _ (generate_cur s) ha hi, rfl, hfail _⟩,
      ⟨_, execXor_zeros_whole_block _ (generate_cur s) ha hi, rfl, hfail _⟩⟩

/-! ### O20: GEN (R135) -/

theorem execGen_uninit (s : State) (ha : s.abrt = false) (hi : s.initd = false) :
    exec .gen s = .next (raise .notInitialised s) := by
  rw [exec, execGen, commonCheck_uninit s ha hi]

/-- GEN while `EXH = 1` (R135): refused without latching `ABRT`. -/
theorem execGen_exhausted (s : State) (ha : s.abrt = false) (hi : s.initd = true)
    (he : s.exh = true) : exec .gen s = .next (raise .keystreamExhausted s) := by
  rw [exec, execGen, commonCheck_pass s ha hi, block_exhausted s he]

theorem execGen_generates (s : State) (ha : s.abrt = false) (hi : s.initd = true)
    (he : s.exh = false) : exec .gen s = .next (respond [statusOk] (generate s)) := by
  rw [exec, execGen, commonCheck_pass s ha hi, block_generates s he]

/-- Settles O20: GEN's four cases, in the order of its checks. -/
theorem genAnswersAndEffects : Obligations.GenAnswersAndEffects := by
  unfold Obligations.GenAnswersAndEffects
  intro s
  refine ⟨?aborted, execGen_uninit s, execGen_exhausted s, ?generates⟩
  case aborted =>
    intro ha
    exact exec_aborted .gen s ha (by simp)
  case generates =>
    intro ha hi he
    exact ⟨_, execGen_generates s ha hi he, by simp [statusOk], generate_out s,
      generate_counter_toNat s, generate_exh_iff s he, generate_cur s,
      generate_sameInstanceWords s, generate_rounds s, (generate_initd s).trans hi,
      (generate_abrt s).trans ha, generate_inbox s⟩

end Sys2Proof.Machine

/-! PROOFS. The obligations of 42_init_seek_stat.md on INIT (R140 to R143), SEEK (R145, R146) and STAT (R148).
INIT is cut at the answer of its own checks, and each command's effects are read off the operation it runs. -/

namespace Sys2Proof.Machine

section Init

variable {rounds : Word} {key nonce : List Byte}

/-! ### INIT's own checks, one answer at a time (R141, R142) -/

theorem initCheck_shortKey (hk : key.length < 32) :
    initCheck rounds key nonce = some .invalidKeyLength :=
  if_pos hk

theorem initCheck_shortNonce (hk : 32 ≤ key.length) (hn : nonce.length < 8) :
    initCheck rounds key nonce = some .invalidNonceLength :=
  (if_neg hk.not_gt).trans (if_pos hn)

theorem initCheck_badRounds (hk : 32 ≤ key.length) (hn : 8 ≤ nonce.length)
    (hr : rounds.toNat = 0 ∨ rounds.toNat % 2 = 1) :
    initCheck rounds key nonce = some .invalidRounds := by
  have hr' : rounds = 0 ∨ rounds.toNat % 2 = 1 := hr.imp_left BitVec.eq_of_toNat_eq
  exact (if_neg hk.not_gt).trans ((if_neg hn.not_gt).trans (if_pos hr'))

theorem initCheck_passed (hk : 32 ≤ key.length) (hn : 8 ≤ nonce.length)
    (h2 : 2 ≤ rounds.toNat) (heven : rounds.toNat % 2 = 0) :
    initCheck rounds key nonce = none := by
  have hr : ¬(rounds = 0 ∨ rounds.toNat % 2 = 1) := by
    rintro (rfl | hodd)
    · exact absurd h2 (by decide)
    · omega
  exact (if_neg hk.not_gt).trans ((if_neg hn.not_gt).trans (if_neg hr))

/-! ### INIT (R140, R143) -/

theorem execInit_refused (s : State) (e : ErrorKind) (ha : s.abrt = false)
    (hc : initCheck rounds key nonce = some e) :
    exec (.init rounds key nonce) s = .next (raise e s) := by
  rw [exec, execInit, commonCheck_init s ha, hc]

theorem execInit_constructs (s : State) (ha : s.abrt = false)
    (hc : initCheck rounds key nonce = none) :
    exec (.init rounds key nonce) s =
      .next (respond [statusOk] (construct rounds key nonce s)) := by
  rw [exec, execInit, commonCheck_init s ha, hc]

end Init

/-- The key words follow the four constants (10_state.md R23). -/
theorem instanceWords_key (key nonce : List Byte) (n : BlockIndex) (j : Nat) (h : j < 8) :
    (instanceWords key nonce n)[4 + j]'(by omega) = wordAt key (4 * j) := by
  interval_cases j <;> rfl

theorem instanceWords_key_toNat (key nonce : List Byte) (n : BlockIndex) (j : Nat) (h : j < 8) :
    ((instanceWords key nonce n)[4 + j]'(by omega)).toNat =
      byteAt key (4 * j) + 2 ^ 8 * byteAt key (4 * j + 1) + 2 ^ 16 * byteAt key (4 * j + 2) +
        2 ^ 24 * byteAt key (4 * j + 3) := by
  rw [instanceWords_key key nonce n j h, wordAt_toNat]

/-- The nonce words are the last two (10_state.md R25). -/
theorem instanceWords_nonce (key nonce : List Byte) (n : BlockIndex) (j : Nat) (h : j < 2) :
    (instanceWords key nonce n)[14 + j]'(by omega) = wordAt nonce (4 * j) := by
  interval_cases j <;> rfl

theorem instanceWords_nonce_toNat (key nonce : List Byte) (n : BlockIndex) (j : Nat) (h : j < 2) :
    ((instanceWords key nonce n)[14 + j]'(by omega)).toNat =
      byteAt nonce (4 * j) + 2 ^ 8 * byteAt nonce (4 * j + 1) + 2 ^ 16 * byteAt nonce (4 * j + 2) +
        2 ^ 24 * byteAt nonce (4 * j + 3) := by
  rw [instanceWords_nonce key nonce n j h, wordAt_toNat]

/-- Settles O21: one clause for each answer of INIT's checks, and what it constructs field by field. -/
theorem initAnswersAndEffects : Obligations.InitAnswersAndEffects := by
  unfold Obligations.InitAnswersAndEffects
  intro rounds key nonce s
  refine ⟨?aborted, ?shortKey, ?shortNonce, ?badRounds, ?constructs⟩
  case aborted =>
    intro ha
    exact exec_aborted _ s ha (by simp)
  case shortKey =>
    intro ha hk
    exact execInit_refused s _ ha (initCheck_shortKey hk)
  case shortNonce =>
    intro ha hk hn
    exact execInit_refused s _ ha (initCheck_shortNonce hk hn)
  case badRounds =>
    intro ha hk hn hr
    exact execInit_refused s _ ha (initCheck_badRounds hk hn hr)
  case constructs =>
    intro ha hk hn h2 heven
    exact ⟨_, execInit_constructs s ha (initCheck_passed hk hn h2 heven),
      rfl, rfl, rfl, rfl, rfl, instanceWords_key_toNat key nonce 0, rfl, rfl,
      instanceWords_nonce_toNat key nonce 0, rfl, rfl, rfl, rfl, ha, rfl⟩

/-! ### SEEK (R145, R146) -/

theorem execSeek_uninit (n : BlockIndex) (s : State) (ha : s.abrt = false)
    (hi : s.initd = false) : exec (.seek n) s = .next (raise .notInitialised s) := by
  rw [exec, execSeek, commonCheck_uninit s ha hi]

theorem execSeek_generates (n : BlockIndex) (s : State) (ha : s.abrt = false)
    (hi : s.initd = true) :
    exec (.seek n) s = .next (respond [statusOk] (generate (seekTo n s))) := by
  rw [exec, execSeek, commonCheck_pass s ha hi]

theorem counter_seekTo (n : BlockIndex) (s : State) : counter (seekTo n s).w = n := by
  rw [seekTo_w, counter_setCounter]

/-- The block transform after a SEEK leaves the counter one past the index asked for. -/
theorem generate_seekTo_counter_toNat (n : BlockIndex) (s : State) :
    (counter (generate (seekTo n s)).w).toNat = (n.toNat + 1) % 2 ^ 64 := by
  rw [generate_counter_toNat, counter_seekTo]

/-- SEEK clears `EXH` first, so that only the wrap of this block can set it. -/
theorem generate_seekTo_exh_iff (n : BlockIndex) (s : State) :
    (generate (seekTo n s)).exh = true ↔ n.toNat = 2 ^ 64 - 1 := by
  rw [generate_exh_iff (seekTo n s) (seekTo_exh s n), counter_seekTo]

theorem generate_seekTo_sameInstanceWords (n : BlockIndex) (s : State) :
    sameInstanceWords s (generate (seekTo n s)) := fun i h12 h13 =>
  (generate_sameInstanceWords (seekTo n s) i h12 h13).trans
    (seekTo_sameInstanceWords n s i h12 h13)

/-- Settles O23: SEEK's three cases; the last is the block transform at the counter `seekTo` sets. -/
theorem seekAnswersAndEffects : Obligations.SeekAnswersAndEffects := by
  unfold Obligations.SeekAnswersAndEffects
  intro n s
  refine ⟨?aborted, execSeek_uninit n s, ?generates⟩
  case aborted =>
    intro ha
    exact exec_aborted _ s ha (by simp)
  case generates =>
    intro ha hi
    exact ⟨_, execSeek_generates n s ha hi, by simp [statusOk], generate_out (seekTo n s),
      generate_seekTo_counter_toNat n s, generate_seekTo_exh_iff n s, generate_cur (seekTo n s),
      generate_seekTo_sameInstanceWords n s, generate_rounds (seekTo n s),
      (generate_initd (seekTo n s)).trans hi, (generate_abrt (seekTo n s)).trans ha,
      generate_inbox (seekTo n s)⟩

/-! ### STAT (R148; 30_encoding.md R83) -/

/-- The flags byte holds `INITD`, `EXH` and `ABRT` from bit 0 up, and zeros above. -/
theorem statFlags_getLsbD (s : State) (b : Nat) :
    (statFlags s).getLsbD b = [s.initd, s.exh, s.abrt].getD b false := by
  have hbits : ∀ (i e a : Bool) (b : Fin 8),
      (BitVec.ofNat 8 (i.toNat + 2 * e.toNat + 4 * a.toNat)).getLsbD b.val =
        [i, e, a].getD b.val false := by decide
  by_cases hb : b < 8
  · exact hbits s.initd s.exh s.abrt ⟨b, hb⟩
  · have hlong : 8 ≤ b := by omega
    rw [BitVec.getLsbD_of_ge _ b hlong, List.getD_eq_default _ _ (le_trans (by simp) hlong)]

/-- What STAT shows of a word that holds no value while `INITD = 0`. -/
def statMasked (s : State) (v : Word) : Word :=
  if s.initd then v else 0

theorem statMasked_init (s : State) (v : Word) (hi : s.initd = true) : statMasked s v = v :=
  if_pos hi

theorem statMasked_uninit (s : State) (v : Word) (hi : s.initd = false) : statMasked s v = 0 := by
  rw [statMasked, hi]
  rfl

theorem statResponse_eq (s : State) :
    statResponse s = [0x00, statFlags s, BitVec.ofNat 8 s.cur.val] ++
      wordBytes (statMasked s s.rounds) ++ wordBytes (statMasked s s.w[12]) ++
      wordBytes (statMasked s s.w[13]) := rfl

/-- Settles O25: STAT is its response alone, and each field of it is read off. -/
theorem statAnswersInEveryState : Obligations.StatAnswersInEveryState := by
  unfold Obligations.StatAnswersInEveryState
  intro s
  refine ⟨statFlags s, statMasked s s.rounds, statMasked s s.w[12], statMasked s s.w[13],
    ?answer, statFlags_getLsbD s 0, statFlags_getLsbD s 1, statFlags_getLsbD s 2, ?upper,
    fun hi => ⟨statMasked_init s _ hi, statMasked_init s _ hi, statMasked_init s _ hi⟩,
    fun hi => ⟨statMasked_uninit s _ hi, statMasked_uninit s _ hi, statMasked_uninit s _ hi⟩⟩
  case answer =>
    rw [exec_stat, statResponse_eq]
  case upper =>
    intro b hb
    rw [statFlags_getLsbD, List.getD_eq_default _ _ hb]

end Sys2Proof.Machine

/-! PROOFS. The obligations of 43_stream_ops.md on `NEXTBYTE` (R160) and on XOR's length check (R167). Serving a
byte moves only `CUR`, so the effects of `NEXTBYTE` are those of `serveByte` on the state that holds the block. -/

namespace Sys2Proof.Machine

/-! ### NEXTBYTE (R160) -/

/-- Settles O26: a byte of the block in hand, byte 0 of a new block, or dry. -/
theorem nextByteServesOrRunsDry : Obligations.NextByteServesOrRunsDry := by
  unfold Obligations.NextByteServesOrRunsDry
  intro s
  refine ⟨?unread, ?refill, ?dry⟩
  case unread =>
    intro h
    exact ⟨_, nextByte_unread s h, rfl, rfl, rfl, rfl, rfl, rfl, rfl, rfl⟩
  case refill =>
    intro hc he
    exact ⟨generate s, _, block_generates s he, nextByte_refill s hc.not_lt he,
      rfl, rfl, rfl, rfl, rfl, rfl, rfl⟩
  case dry =>
    intro hc he
    exact nextByte_dry s hc.not_lt he

/-! ### XOR's length check (R167) -/

/-- The length check comes before the byte loop, so no keystream byte is consumed. -/
theorem execXor_lengthMismatch (dstLen : Word) (src : List Byte) (s : State) (ha : s.abrt = false)
    (hi : s.initd = true) (hl : dstLen.toNat ≠ src.length) :
    exec (.xor dstLen src) s = .next (raise .lengthMismatch s) := by
  rw [exec, execXor, commonCheck_pass s ha hi]
  exact if_pos hl

/-- Settles O34: `LengthMismatch` is raised in the state XOR found, whatever `CUR` and `EXH` are; its status
is 0x83. -/
theorem xorLengthMismatchChangesNothing : Obligations.XorLengthMismatchChangesNothing :=
  execXor_lengthMismatch

end Sys2Proof.Machine

/-! PROOFS. The obligations of 60_exceptions.md on refusals (R183, R184) and on errors that change no register
(R190). One inversion of `exec` by the kind of its answer carries the last; the first two rest on the common
checks. -/

namespace Sys2Proof.Machine

/-! ### Telling answers apart -/

theorem respond_inj {a b : Packet} {s : State} (h : respond a s = respond b s) : a = b := by
  have hr : s.responses ++ [a] = s.responses ++ [b] := congrArg State.responses h
  simpa using hr

/-- The status byte 0x86 is `NotInitialised`'s alone (R181). -/
theorem raise_eq_respond_0x86_iff (k : ErrorKind) (s : State) :
    raise k s = respond [0x86] s ↔ k = .notInitialised := by
  constructor
  · intro h
    have hk : k.status = 0x86 := by simpa using respond_inj h
    cases k with
    | notInitialised => rfl
    | _ => exact absurd hk (by decide)
  · rintro rfl
    rfl

@[simp] theorem dataResponse_length (status : Byte) (data : List Byte) :
    (dataResponse status data).length = 5 + data.length := by
  rw [dataResponse, List.length_cons, List.length_append, leBytes_length]
  omega

@[simp] theorem statResponse_length (s : State) : (statResponse s).length = 15 := by
  simp [statResponse_eq]

/-! ### O36: commands before the first INIT (R183) -/

theorem execRead_uninit (k : Word) (s : State) (ha : s.abrt = false) (hi : s.initd = false) :
    exec (.read k) s = .next (raise .notInitialised s) := by
  rw [exec, execRead, commonCheck_uninit s ha hi]

theorem execXor_uninit (dstLen : Word) (src : List Byte) (s : State) (ha : s.abrt = false)
    (hi : s.initd = false) : exec (.xor dstLen src) s = .next (raise .notInitialised s) := by
  rw [exec, execXor, commonCheck_uninit s ha hi]

/-- INIT's own checks are of its arguments, not of `INITD`. -/
theorem initCheck_ne_notInitialised (rounds : Word) (key nonce : List Byte) :
    initCheck rounds key nonce ≠ some .notInitialised := by
  rcases initCheck_cases rounds key nonce with ⟨_, h⟩ | ⟨_, _, h⟩ | ⟨_, _, _, h⟩ | ⟨_, _, _, _, h⟩
  all_goals simp [h]

/-- An INIT that passes the common check fails for its arguments or sets `INITD`; neither is a 0x86. -/
theorem execInit_ne_0x86 (rounds : Word) (key nonce : List Byte) (s : State) (ha : s.abrt = false)
    (hi : s.initd = false) : exec (.init rounds key nonce) s ≠ .next (respond [0x86] s) := by
  intro h
  cases hc : initCheck rounds key nonce with
  | some e =>
    rw [execInit_refused s e ha hc] at h
    rw [(raise_eq_respond_0x86_iff e s).mp (next_inj h)] at hc
    exact initCheck_ne_notInitialised rounds key nonce hc
  | none =>
    rw [execInit_constructs s ha hc] at h
    have hinitd : true = s.initd := congrArg State.initd (next_inj h)
    simp [hi] at hinitd

theorem execStat_ne_0x86 (s : State) : exec .stat s ≠ .next (respond [0x86] s) := by
  intro h
  have hlen : (statResponse s).length = 1 := congrArg List.length (respond_inj (next_inj h))
  rw [statResponse_length] at hlen
  cases hlen

/-- Settles O36: the four commands stop at the common check; an INIT's own answers and STAT's are others. -/
theorem uninitialisedCommandsRefused : Obligations.UninitialisedCommandsRefused := by
  unfold Obligations.UninitialisedCommandsRefused
  intro i s ha hi
  constructor
  · rintro (rfl | ⟨n, rfl⟩ | ⟨k, rfl⟩ | ⟨d, src, rfl⟩)
    · exact execGen_uninit s ha hi
    · exact execSeek_uninit n s ha hi
    · exact execRead_uninit k s ha hi
    · exact execXor_uninit d src s ha hi
  · rintro (rfl | ⟨r, k, n, rfl⟩)
    · exact execStat_ne_0x86 s
    · exact execInit_ne_0x86 r k n s ha hi

/-! ### O37: the aborted engine (R184) -/

/-- No command clears `ABRT`: STAT changes nothing, and every other command is refused. -/
theorem exec_keeps_abrt (i : Instr) (s t : State) (ha : s.abrt = true) (h : exec i s = .next t) :
    t.abrt = true := by
  by_cases hi : i = .stat
  · subst hi
    rw [← next_inj h]
    exact ha
  · rw [exec_aborted i s ha hi] at h
    rw [← next_inj h]
    exact ha

/-- A step that clears `ABRT` took a reset: it did not wait, execute a command or reject a packet. -/
theorem step_clears_abrt (s t : State) (ha : s.abrt = true) (h : step s = .next t)
    (ht : t.abrt = false) : ∃ c rest, s.inbox = .reset c :: rest := by
  rcases step_cases s with ⟨_, hs⟩ | ⟨_, rest, i, _, _, hs⟩ | ⟨_, rest, _, _, _, hs⟩ |
    ⟨c, rest, hin, _⟩
  · rw [hs] at h
    rw [← next_inj h, wait, ha] at ht
    cases ht
  · rw [hs] at h
    rw [exec_keeps_abrt i { s with inbox := rest } t ha h] at ht
    cases ht
  · rw [hs] at h
    rw [← next_inj h, rejectPacket_abrt, ha] at ht
    cases ht
  · exact ⟨c, rest, hin⟩

/-- Settles O37: the common check refuses all but STAT, and only a reset event clears the latch. -/
theorem abortedUntilReset : Obligations.AbortedUntilReset := by
  unfold Obligations.AbortedUntilReset
  refine ⟨?refused, ?stat, step_clears_abrt⟩
  case refused =>
    intro i s ha hi
    exact exec_aborted i s ha hi
  case stat =>
    intro s _
    exact ⟨statResponse s, statResponse_length s, rfl, exec_stat s⟩

/-! ### O38: errors change no register (R190) -/

theorem drain_responses (n : Nat) (s : State) : (drain n s).state.responses = s.responses := by
  obtain ⟨-, -, -, -, -, h⟩ := drain_frame n s
  exact h

/-- Every command by the kind of its answer: an error raised in the state found, STAT, an answer `OK`, a READ
answered `EOS`, or an XOR that ran dry. -/
theorem exec_answer_cases (i : Instr) (s : State) :
    (∃ e, exec i s = .next (raise e s)) ∨
    (i = .stat ∧ exec i s = .next (respond (statResponse s) s)) ∨
    (i ≠ .stat ∧ ∃ body u, exec i s = .next (respond (statusOk :: body) u) ∧
      u.responses = s.responses) ∨
    (∃ k, i = .read k ∧ (drain k.toNat s).dry = true ∧ exec i s =
      .next (respond (dataResponse statusEos (drain k.toNat s).data) (drain k.toNat s).state)) ∨
    (∃ d src u, i = .xor d src ∧ exec i s = .next (raise .keystreamExhausted u) ∧
      u.responses = s.responses) := by
  cases i with
  | init r k n =>
    rcases execInit_cases r k n s with h | ⟨_, _, _, _, _, h⟩
    · exact .inl h
    · exact .inr (.inr (.inl ⟨nofun, [], _, h, rfl⟩))
  | gen =>
    rcases execGen_cases s with h | ⟨_, _, _, h⟩
    · exact .inl h
    · exact .inr (.inr (.inl ⟨nofun, [], _, h, generate_responses s⟩))
  | seek n =>
    rcases execSeek_cases n s with h | ⟨_, _, h⟩
    · exact .inl h
    · exact .inr (.inr (.inl ⟨nofun, [], _, h, generate_responses (seekTo n s)⟩))
  | read k =>
    rcases execRead_cases k s with h | ⟨_, _, h⟩
    · exact .inl h
    · cases hd : (drain k.toNat s).dry with
      | true =>
        rw [hd] at h
        exact .inr (.inr (.inr (.inl ⟨k, rfl, hd, h⟩)))
      | false =>
        rw [hd] at h
        exact .inr (.inr (.inl ⟨nofun, _, _, h, drain_responses _ s⟩))
  | xor d src =>
    rcases execXor_cases d src s with h | ⟨_, _, _, _, h⟩ | ⟨_, _, _, _, h⟩
    · exact .inl h
    · exact .inr (.inr (.inr (.inr ⟨d, src, _, rfl, h, drain_responses _ s⟩)))
    · exact .inr (.inr (.inl ⟨nofun, _, _, h, drain_responses _ s⟩))
  | stat => exact .inr (.inl ⟨rfl, exec_stat s⟩)

/-- The answers R190 speaks of: an error byte other than the XOR abort's, `EOS` with count 0, any of STAT's. -/
def keepsRegisters (i : Instr) (rsp : Packet) : Prop :=
  (∃ e : Byte, rsp = [e] ∧ 0x80 ≤ e.toNat ∧ ¬(e = 0x84 ∧ ∃ d src, i = .xor d src)) ∨
    rsp = [0x01, 0, 0, 0, 0] ∨ i = .stat

theorem not_keepsRegisters_ok (i : Instr) (hi : i ≠ .stat) (body : List Byte) :
    ¬keepsRegisters i (statusOk :: body) := by
  rintro (⟨e, h, hge, -⟩ | h | h)
  · obtain rfl : statusOk = e := (List.cons.inj h).1
    exact absurd hge (by decide)
  · exact absurd (List.cons.inj h).1 (by decide)
  · exact hi h

theorem not_keepsRegisters_xorAbort (d : Word) (src : List Byte) :
    ¬keepsRegisters (.xor d src) [ErrorKind.keystreamExhausted.status] := by
  rintro (⟨e, h, -, hne⟩ | h | h)
  · obtain rfl : ErrorKind.keystreamExhausted.status = e := (List.cons.inj h).1
    exact hne ⟨rfl, d, src, rfl⟩
  · simp at h
  · cases h

/-- A READ answered `EOS` is one of them only with no data: the response is no single byte. -/
theorem data_of_keepsRegisters_eos (k : Word) (data : List Byte)
    (h : keepsRegisters (.read k) (dataResponse statusEos data)) : data = [] := by
  rcases h with ⟨e, h, -⟩ | h | h
  · have hlen : 5 + data.length = 1 := by simpa using congrArg List.length h
    omega
  · have hlen : data.length = 0 := by simpa using congrArg List.length h
    exact List.length_eq_zero_iff.mp hlen
  · cases h

/-- A byte loop that ran dry with no byte served found none left, and so changed nothing. -/
theorem drain_dry_empty (n : Nat) (s : State) (hd : (drain n s).dry = true)
    (he : (drain n s).data = []) : (drain n s).state = s := by
  obtain ⟨hlen, hdry, -⟩ := drain_counts n s
  rw [he, List.length_nil] at hlen
  have hlt := hdry.mp hd
  exact drain_nothing_left n s (by omega)

/-- The one response seen to be sent is the one `respond` was given. -/
theorem respond_eq_of_responses {s u : State} {a b : Packet} (hu : u.responses = s.responses)
    (h : (respond a u).responses = s.responses ++ [b]) : b = a := by
  simpa [hu, eq_comm] using h

/-- Kind by kind, an answer R190 speaks of either came from the state found or is not one of that kind. -/
theorem exec_sameRegisters (i : Instr) (s t : State) (rsp : Packet) (h : exec i s = .next t)
    (hr : t.responses = s.responses ++ [rsp]) (hk : keepsRegisters i rsp) : s.SameRegisters t := by
  rcases exec_answer_cases i s with ⟨e, hx⟩ | ⟨_, hx⟩ | ⟨hi, body, u, hx, hu⟩ |
    ⟨k, rfl, hd, hx⟩ | ⟨d, src, u, rfl, hx, hu⟩
  all_goals obtain rfl := next_inj (hx.symm.trans h)
  · exact raise_sameRegisters e s
  · exact respond_sameRegisters _ s
  · rw [respond_eq_of_responses hu hr] at hk
    exact absurd hk (not_keepsRegisters_ok i hi body)
  · rw [respond_eq_of_responses (drain_responses k.toNat s) hr] at hk
    rw [drain_dry_empty k.toNat s hd (data_of_keepsRegisters_eos k _ hk)]
    exact respond_sameRegisters _ s
  · rw [respond_eq_of_responses hu hr] at hk
    exact absurd hk (not_keepsRegisters_xorAbort d src)

/-- Settles O38: of the kinds of answer, those R190 speaks of are sent from the registers found; a packet
that is no command is refused likewise. -/
theorem errorsChangeNoRegister : Obligations.ErrorsChangeNoRegister := by
  unfold Obligations.ErrorsChangeNoRegister
  refine ⟨exec_sameRegisters, fun cmd rest s t hin hwf h => ?_⟩
  obtain ⟨u, hu, hsame, -⟩ :=
    step_refuses_packet s cmd rest hin (mt (decodes_iff_packetWellFormed cmd).mp hwf)
  rwa [next_inj (h.symm.trans hu)]

end Sys2Proof.Machine

/-! PROOFS. The two round trips of 30_encoding.md: every command is read back from its packet, and a packet that
decodes is the packet of its command. Then the listed packets and lines of text, and a step on a packet. -/

namespace Sys2Proof

open Machine

/-! ### O1: decoding what was encoded -/

theorem decode_encode (i : Instr) (hwf : i.wf = true) : decode (encode i) = .ok i := by
  cases i with
  | init rounds key nonce =>
    obtain ⟨hk, hn⟩ := (wf_init_iff rounds key nonce).mp hwf
    rw [decode_encode_init, decodeInit_encoded rounds key nonce hk hn]
  | gen => exact (decode_eq_gen_iff _).mpr rfl
  | seek n => rw [decode_encode_seek, decodeSeek_encoded]
  | read k => rw [decode_encode_read, decodeRead_encoded]
  | xor dstLen src =>
    rw [decode_encode_xor, decodeXor_encoded dstLen src ((wf_xor_iff dstLen src).mp hwf)]
  | stat => exact (decode_eq_stat_iff _).mpr rfl

/-- Settles O1: the decoder of each opcode reads back its own fields. -/
theorem decodeOfEncodeIsIdentity : Obligations.DecodeOfEncodeIsIdentity :=
  decode_encode

/-! ### O2: encoding what was decoded (R79, R85) -/

/-- A packet is its opcode and the bytes from offset 1 on. -/
theorem packet_eq_cons {cmd : Packet} {op : Byte} (h : cmd.head? = some op) :
    op :: cmd.drop 1 = cmd := by
  obtain ⟨body, rfl⟩ := List.head?_eq_some_iff.mp h
  rfl

/-- Two word fields from offset 1 on fill a packet of nine bytes. -/
theorem encodeBody_decoded_seek {cmd : Packet} (hlen : cmd.length = 9) :
    encodeBody (.seek (joinWords (wordAt cmd 1) (wordAt cmd 5))) = cmd.drop 1 := by
  have htail : (cmd.drop 5).take 4 = cmd.drop 5 := List.take_of_length_le (by simp [hlen])
  rw [encodeBody, lowWord_joinWords, highWord_joinWords, wordBytes_wordAt cmd 1 (by omega),
    wordBytes_wordAt cmd 5 (by omega), htail]
  exact take_drop_append 4 1 cmd

theorem encodeBody_decoded_read {cmd : Packet} (hlen : cmd.length = 5) :
    encodeBody (.read (wordAt cmd 1)) = cmd.drop 1 := by
  rw [encodeBody, wordBytes_wordAt cmd 1 (by omega)]
  exact List.take_of_length_le (by simp [hlen])

/-- A field of the length its packet gives is as long as that. -/
theorem length_take_drop {cmd : Packet} {offset n : Nat} (h : offset + n ≤ cmd.length) :
    ((cmd.drop offset).take n).length = n := by
  rw [List.length_take, List.length_drop]
  omega

/-- The five fields of an INIT packet follow one another without a gap. -/
theorem encodeBody_decoded_init {cmd : Packet} {keyLen nonceLen : Nat}
    (hkey : fieldAt cmd 5 2 = keyLen) (hnonce : fieldAt cmd 7 2 = nonceLen)
    (hlen : cmd.length = 9 + keyLen + nonceLen) :
    encodeBody (.init (wordAt cmd 1) ((cmd.drop 9).take keyLen)
      ((cmd.drop (9 + keyLen)).take nonceLen)) = cmd.drop 1 := by
  have htail : (cmd.drop (9 + keyLen)).take nonceLen = cmd.drop (9 + keyLen) :=
    List.take_of_length_le (by rw [List.length_drop]; omega)
  rw [encodeBody, length_take_drop (by omega), length_take_drop (by omega), ← hkey, ← hnonce,
    leBytes_fieldAt cmd 5 2 (by omega), leBytes_fieldAt cmd 7 2 (by omega),
    wordBytes_wordAt cmd 1 (by omega), hkey, hnonce, htail]
  simp only [List.append_assoc]
  rw [take_drop_append keyLen 9, take_drop_append 2 7, take_drop_append 2 5, take_drop_append 4 1]

/-- The three fields of an XOR packet follow one another without a gap. -/
theorem encodeBody_decoded_xor {cmd : Packet} {srcLen : Nat} (hsrc : fieldAt cmd 5 4 = srcLen)
    (hlen : cmd.length = 9 + srcLen) :
    encodeBody (.xor (wordAt cmd 1) ((cmd.drop 9).take srcLen)) = cmd.drop 1 := by
  have htail : (cmd.drop 9).take srcLen = cmd.drop 9 :=
    List.take_of_length_le (by rw [List.length_drop]; omega)
  rw [encodeBody, length_take_drop (by omega), ← hsrc, leBytes_fieldAt cmd 5 4 (by omega),
    wordBytes_wordAt cmd 1 (by omega), hsrc, htail, List.append_assoc, take_drop_append 4 5,
    take_drop_append 4 1]

/-- A byte string of the length a field gives fits that field. -/
theorem length_take_fieldAt_lt (bs cmd : List Byte) (offset size : Nat) :
    (bs.take (fieldAt cmd offset size)).length < 256 ^ size :=
  (List.length_take_le _ _).trans_lt (fieldAt_lt cmd offset size)

theorem wf_of_decode (cmd : Packet) (i : Instr) (h : decode cmd = .ok i) : i.wf = true := by
  rcases (decode_eq_ok_iff cmd i).mp h with ⟨-, -, rfl⟩ | ⟨-, -, rfl⟩ | ⟨-, -, rfl⟩ |
    ⟨-, -, rfl⟩ | ⟨-, -, rfl⟩ | ⟨-, -, rfl⟩
  · exact (wf_init_iff _ _ _).mpr ⟨length_take_fieldAt_lt _ cmd 5 2, length_take_fieldAt_lt _ cmd 7 2⟩
  · rfl
  · rfl
  · rfl
  · exact (wf_xor_iff _ _).mpr (length_take_fieldAt_lt _ cmd 5 4)
  · rfl

theorem encode_of_decode (cmd : Packet) (i : Instr) (h : decode cmd = .ok i) : encode i = cmd := by
  rcases (decode_eq_ok_iff cmd i).mp h with ⟨hop, ⟨-, hlen⟩, rfl⟩ | ⟨hop, hlen, rfl⟩ |
    ⟨hop, hlen, rfl⟩ | ⟨hop, hlen, rfl⟩ | ⟨hop, ⟨-, hlen⟩, rfl⟩ | ⟨hop, hlen, rfl⟩
  · rw [encode, encodeBody_decoded_init rfl rfl hlen, opcodeOf, packet_eq_cons hop]
  · exact ((head?_and_length_one_iff cmd _).mp ⟨hop, hlen⟩).symm
  · rw [encode, encodeBody_decoded_seek hlen, opcodeOf, packet_eq_cons hop]
  · rw [encode, encodeBody_decoded_read hlen, opcodeOf, packet_eq_cons hop]
  · rw [encode, encodeBody_decoded_xor rfl hlen, opcodeOf, packet_eq_cons hop]
  · exact ((head?_and_length_one_iff cmd _).mp ⟨hop, hlen⟩).symm

/-- Settles O2: the fields of each packet follow one another from offset 1 to its end. -/
theorem encodeOfDecodeIsIdentity : Obligations.EncodeOfDecodeIsIdentity := fun cmd i h =>
  ⟨wf_of_decode cmd i h, encode_of_decode cmd i h⟩

/-! ### O6, O7: packets and lines written out (95_test_vectors.md section 4; R86, R87) -/

/-- Settles O6: the decoder evaluated on each packet. -/
theorem listedPacketsDecodeAsListed : Obligations.ListedPacketsDecodeAsListed := by
  unfold Obligations.ListedPacketsDecodeAsListed
  decide

/-- Settles O7: the assembler evaluated on each line. -/
theorem syntaxLinesStandForCommands : Obligations.SyntaxLinesStandForCommands := by
  unfold Obligations.SyntaxLinesStandForCommands
  decide

/-! ### O42: a step on a packet (20_memory.md section 6) -/

/-- Settles O42: a command's own packet is one that decodes to it. -/
theorem stepExecutesDecodedCommand : Obligations.StepExecutesDecodedCommand := by
  unfold Obligations.StepExecutesDecodedCommand
  constructor
  · intro cmd i rest s hin hd
    exact step_packet_ok s cmd rest i hin hd
  · intro i rest s hin hwf
    exact step_packet_ok s (encode i) rest i hin (decode_encode i hwf)

end Sys2Proof

/-! PROOFS. The obligations of 40_arx_datapath.md on bijections and on order: the quarter round has an inverse, so
have the quarter round in place and the rounds; quarter rounds at disjoint quadruples may be done in any order; and
`PERMUTE` is its single rounds in turn. -/

namespace Sys2Proof.Machine

/-! ### O10: the inverse of the quarter round (R104) -/

/-- Two rotations that add up to 32 bring each bit back to its place. -/
theorem rotl32_rotl32 (v : Word) (m n : Nat) (hm : m < 32) (hn : n < 32) (h : m + n = 32) :
    rotl32 (rotl32 v m) n = v := by
  apply BitVec.eq_of_getLsbD_eq
  intro i hi
  have hback : ((i + m) % 32 + n) % 32 = i := by omega
  calc (rotl32 (rotl32 v m) n).getLsbD i
      = (rotl32 (rotl32 v m) n).getLsbD (((i + m) % 32 + n) % 32) := by rw [hback]
    _ = (rotl32 v m).getLsbD ((i + m) % 32) := rotl32_getLsbD _ n _ hn (Nat.mod_lt _ (by decide))
    _ = v.getLsbD i := rotl32_getLsbD v m i hm hi

/-- The four lines of the quarter round undone, the last one first. -/
def Quad.qrInv (q : Quad) : Quad :=
  let b1 := xor32 (rotl32 q.b 25) q.c
  let c1 := q.c - q.d
  let d1 := xor32 (rotl32 q.d 24) q.a
  let a1 := q.a - b1
  let b := xor32 (rotl32 b1 20) c1
  let c := c1 - d1
  let d := xor32 (rotl32 d1 16) a1
  ⟨a1 - b, b, c, d⟩

theorem xor32_xor32_cancel (a b : Word) : xor32 (xor32 a b) b = a := by
  simp [xor32]

theorem add32_sub_cancel (a b : Word) : add32 a b - b = a :=
  BitVec.add_sub_cancel a b

theorem add32_sub (a b : Word) : add32 (a - b) b = a :=
  BitVec.sub_add_cancel a b

theorem qrInv_qr (q : Quad) : q.qr.qrInv = q := by
  simp only [Quad.qr, qr, Quad.qrInv, rotl32_rotl32 _ 7 25 (by decide) (by decide) rfl,
    rotl32_rotl32 _ 8 24 (by decide) (by decide) rfl, rotl32_rotl32 _ 12 20 (by decide) (by decide) rfl,
    rotl32_rotl32 _ 16 16 (by decide) (by decide) rfl, xor32_xor32_cancel, add32_sub_cancel]

theorem qr_qrInv (q : Quad) : q.qrInv.qr = q := by
  simp only [Quad.qr, qr, Quad.qrInv, rotl32_rotl32 _ 25 7 (by decide) (by decide) rfl,
    rotl32_rotl32 _ 24 8 (by decide) (by decide) rfl, rotl32_rotl32 _ 20 12 (by decide) (by decide) rfl,
    rotl32_rotl32 _ 16 16 (by decide) (by decide) rfl, xor32_xor32_cancel, add32_sub]

/-- Settles O10: each line of the quarter round can be undone. -/
theorem quarterRoundIsBijective : Obligations.QuarterRoundIsBijective := by
  unfold Obligations.QuarterRoundIsBijective
  constructor
  · intro a b c d a' b' c' d' h
    have hq : (⟨a, b, c, d⟩ : Quad) = ⟨a', b', c', d'⟩ := by
      rw [← qrInv_qr ⟨a, b, c, d⟩, ← qrInv_qr ⟨a', b', c', d'⟩]
      exact congrArg Quad.qrInv h
    simpa using hq
  · intro q
    exact ⟨q.qrInv.a, q.qrInv.b, q.qrInv.c, q.qrInv.d, qr_qrInv q⟩

/-! ### O12: the order of disjoint quarter rounds (R107) -/

/-- Arrays with the same entries at a quadruple agree at each of its indices. -/
theorem get_eq_of_quadAt_eq {x y : Words} {q : QuadIndex} (h : quadAt x q = quadAt y q)
    {j : Fin 16} (hj : j ∈ q.toList) : x[j] = y[j] := by
  simp only [quadAt, Quad.mk.injEq] at h
  obtain ⟨ha, hb, hc, hd⟩ := h
  simp only [QuadIndex.toList, List.mem_cons, List.not_mem_nil, or_false] at hj
  rcases hj with rfl | rfl | rfl | rfl
  · exact ha
  · exact hb
  · exact hc
  · exact hd

theorem words_ext {x y : Words} (h : ∀ j : Fin 16, x[j] = y[j]) : x = y :=
  Vector.ext fun j hj => h ⟨j, hj⟩

/-- When no index occurs twice the quarter rounds may be done in any order: each quadruple ends as the quarter round
of its old entries, and every other entry stays. -/
theorem foldl_qrxAt_perm {ps qs : List QuadIndex} (hperm : ps.Perm qs) (x : Words)
    (hps : (ps.flatMap QuadIndex.toList).Nodup) : ps.foldl qrxAt x = qs.foldl qrxAt x := by
  have hflat := List.Perm.flatMap_right QuadIndex.toList hperm
  apply words_ext
  intro j
  by_cases hj : j ∈ ps.flatMap QuadIndex.toList
  · obtain ⟨q, hq, hjq⟩ := List.mem_flatMap.mp hj
    refine get_eq_of_quadAt_eq ?_ hjq
    rw [quadAt_foldl_qrxAt ps x hps q hq,
      quadAt_foldl_qrxAt qs x (hflat.nodup_iff.mp hps) q (hperm.mem_iff.mp hq)]
  · rw [foldl_qrxAt_get_of_notMem ps x j hj,
      foldl_qrxAt_get_of_notMem qs x j (mt hflat.mem_iff.mpr hj)]

/-- Settles O12: the two orders are permutations of one another. -/
theorem disjointQuarterRoundsCommute : Obligations.DisjointQuarterRoundsCommute := by
  unfold Obligations.DisjointQuarterRoundsCommute
  intro x ia ib ic id ja jb jc jd hnodup
  exact foldl_qrxAt_perm (List.Perm.swap (ja, jb, jc, jd) (ia, ib, ic, id) []) x hnodup

/-! ### O14: `PERMUTE` as single rounds in turn (R111, R133) -/

/-- `n` double rounds are the rounds 0 to `2 * n - 1`: round `2 * n` is a column round and the next a diagonal one. -/
theorem doubleRounds_eq_foldl (n : Nat) (x : Words) :
    doubleRounds n x = (List.range (2 * n)).foldl roundAt x := by
  induction n with
  | zero => rfl
  | succ n ih =>
    have hcol : ∀ y, roundAt y (2 * n) = colRound y := fun y => if_pos (by omega)
    have hdiag : ∀ y, roundAt y (2 * n + 1) = diagRound y := fun y => if_neg (by omega)
    rw [doubleRounds_add n 1, ih, Nat.mul_succ, List.range_succ, List.range_succ, List.foldl_append,
      List.foldl_append, List.foldl_cons, List.foldl_nil, List.foldl_cons, List.foldl_nil, hcol,
      hdiag]
    rfl

/-- Settles O14: an even round count is twice its half. -/
theorem permuteAlternatesRounds : Obligations.PermuteAlternatesRounds := by
  unfold Obligations.PermuteAlternatesRounds
  intro x r heven
  have hhalf : 2 * (r.toNat / 2) = r.toNat := by omega
  rw [permute, doubleRounds_eq_foldl, hhalf]

/-! ### O15: `PERMUTE` as a bijection (40_arx_datapath.md section 3) -/

/-- An array with the entries at a quadruple replaced. -/
def setQuad (x : Words) (q : QuadIndex) (r : Quad) : Words :=
  (((x.set q.1 r.a).set q.2.1 r.b).set q.2.2.1 r.c).set q.2.2.2 r.d

theorem qrxAt_eq_setQuad (x : Words) (q : QuadIndex) :
    qrxAt x q = setQuad x q (quadAt x q).qr := rfl

theorem setQuad_get (x : Words) (q : QuadIndex) (r : Quad) (j : Fin 16) :
    (setQuad x q r)[j] =
      if q.2.2.2 = j then r.d else if q.2.2.1 = j then r.c else if q.2.1 = j then r.b
      else if q.1 = j then r.a else x[j] := by
  simp only [setQuad, Fin.getElem_fin, Vector.getElem_set, Fin.val_inj]

theorem setQuad_setQuad (x : Words) (q : QuadIndex) (r r' : Quad) :
    setQuad (setQuad x q r) q r' = setQuad x q r' := by
  apply words_ext
  intro j
  simp only [setQuad_get]
  split_ifs <;> rfl

/-- Writing the entries of a quadruple back changes nothing. -/
theorem setQuad_quadAt (x : Words) (q : QuadIndex) : setQuad x q (quadAt x q) = x := by
  apply words_ext
  intro j
  rw [setQuad_get, quadAt]
  split_ifs with hd hc hb ha
  · exact congrArg (fun k : Fin 16 => x[k]) hd
  · exact congrArg (fun k : Fin 16 => x[k]) hc
  · exact congrArg (fun k : Fin 16 => x[k]) hb
  · exact congrArg (fun k : Fin 16 => x[k]) ha
  · rfl

theorem quadAt_setQuad (x : Words) (q : QuadIndex) (r : Quad) (hq : q.toList.Nodup) :
    quadAt (setQuad x q r) q = r := by
  simp only [QuadIndex.toList, List.nodup_cons, List.mem_cons, List.not_mem_nil, or_false,
    not_or] at hq
  obtain ⟨⟨hab, hac, had⟩, ⟨hbc, hbd⟩, hcd, -⟩ := hq
  simp only [quadAt, setQuad_get, Ne.symm hab, Ne.symm hac, Ne.symm had, Ne.symm hbc, Ne.symm hbd,
    Ne.symm hcd, if_true, if_false]

/-- The quarter round in place is undone by the inverse quarter round in place. -/
theorem qrxAt_bijective (q : QuadIndex) (hq : q.toList.Nodup) :
    Function.Bijective fun x => qrxAt x q := by
  refine Function.bijective_iff_has_inverse.mpr
    ⟨fun y => setQuad y q (quadAt y q).qrInv, fun x => ?_, fun y => ?_⟩
  · simp only [qrxAt_eq_setQuad, quadAt_setQuad _ q _ hq, setQuad_setQuad, qrInv_qr, setQuad_quadAt]
  · simp only [qrxAt_eq_setQuad, quadAt_setQuad _ q _ hq, setQuad_setQuad, qr_qrInv, setQuad_quadAt]

theorem foldl_qrxAt_bijective (qs : List QuadIndex) (hqs : (qs.flatMap QuadIndex.toList).Nodup) :
    Function.Bijective fun x => qs.foldl qrxAt x := by
  induction qs with
  | nil => exact Function.bijective_id
  | cons q qs ih =>
    rw [List.flatMap_cons, List.nodup_append'] at hqs
    obtain ⟨hq, htail, -⟩ := hqs
    exact (ih htail).comp (qrxAt_bijective q hq)

theorem doubleRound_bijective : Function.Bijective doubleRound :=
  (foldl_qrxAt_bijective diags (by decide)).comp (foldl_qrxAt_bijective cols (by decide))

theorem doubleRounds_bijective (n : Nat) : Function.Bijective (doubleRounds n) := by
  induction n with
  | zero => exact Function.bijective_id
  | succ n ih => exact ih.comp doubleRound_bijective

theorem doubleRound_zero : doubleRound (Vector.replicate 16 0) = Vector.replicate 16 0 := by
  decide

theorem doubleRounds_zero (n : Nat) :
    doubleRounds n (Vector.replicate 16 0) = Vector.replicate 16 0 := by
  induction n with
  | zero => rfl
  | succ n ih => rw [doubleRounds, doubleRound_zero, ih]

/-- Settles O15: a composition of quarter rounds in place, each of which keeps the zero array. -/
theorem permuteIsBijective : Obligations.PermuteIsBijective := by
  unfold Obligations.PermuteIsBijective
  intro r
  obtain ⟨hinj, hsurj⟩ := doubleRounds_bijective (r.toNat / 2)
  exact ⟨fun x y h => hinj h, hsurj, doubleRounds_zero _⟩

end Sys2Proof.Machine

/-! PROOFS. What every command and every step keeps: the invariants of 10_state.md R37, the words INIT writes, the
three flags, the operating states of 60_exceptions.md section 6, one legal response to a packet, and hardware reset.
One inversion of `exec` by its effect on the registers carries all of them but the reset. -/

namespace Sys2Proof.Machine

/-! ### Legal responses (30_encoding.md R80 to R83) -/

theorem responseLegal_error (k : ErrorKind) : responseLegal [k.status] := by
  refine .inr (.inl ⟨k.status, rfl, ?_⟩)
  cases k <;> decide

theorem responseLegal_ok : responseLegal [statusOk] :=
  .inl rfl

theorem responseLegal_data (st : Byte) (data : List Byte) (h : st = statusOk ∨ st = statusEos) :
    responseLegal (dataResponse st data) :=
  .inr (.inr (.inl ⟨st, data, h, rfl⟩))

theorem statFlags_lt (s : State) : (statFlags s).toNat < 8 := by
  have hflags : ∀ i e a : Bool,
      (BitVec.ofNat 8 (i.toNat + 2 * e.toNat + 4 * a.toNat)).toNat < 8 := by decide
  exact hflags s.initd s.exh s.abrt

theorem cursorByte_le (c : Fin 65) : (BitVec.ofNat 8 c.val).toNat ≤ 64 := by
  have hc := c.isLt
  rw [BitVec.toNat_ofNat]
  omega

theorem responseLegal_stat (s : State) : responseLegal (statResponse s) := by
  refine .inr (.inr (.inr ⟨statFlags s, BitVec.ofNat 8 s.cur.val,
    wordBytes (statMasked s s.rounds) ++ wordBytes (statMasked s s.w[12]) ++
      wordBytes (statMasked s s.w[13]), statFlags_lt s, cursorByte_le s.cur, ?_, ?_⟩))
  · simp
  · simp [statResponse_eq]

/-! ### The effect of a command -/

/-- READ and XOR: the commands that run the byte loop. -/
def IsStreamCommand (i : Instr) : Prop :=
  (∃ k, i = .read k) ∨ ∃ d src, i = .xor d src

/-- What command `i` may make of state `s`: a response that is all it changes (never SEEK's on an engine that
passes the common checks), INIT's construction, one block transform, or the byte loop, with or without the XOR
abort. -/
inductive Effect (i : Instr) (s : State) : State → Prop
  | answered (rsp : Packet) (legal : responseLegal rsp)
      (seek : ∀ n, i = .seek n → ¬(s.abrt = false ∧ s.initd = true)) : Effect i s (respond rsp s)
  | constructed (r : Word) (key nonce : List Byte) (hi : i = .init r key nonce)
      (abrt : s.abrt = false) (nonzero : r ≠ 0) (even : r.toNat % 2 = 0) :
      Effect i s (respond [statusOk] (construct r key nonce s))
  | generated (hi : i = .gen) (abrt : s.abrt = false) (initd : s.initd = true)
      (exh : s.exh = false) : Effect i s (respond [statusOk] (generate s))
  | sought (n : BlockIndex) (hi : i = .seek n) (abrt : s.abrt = false) (initd : s.initd = true) :
      Effect i s (respond [statusOk] (generate (seekTo n s)))
  | served (n : Nat) (rsp : Packet) (legal : responseLegal rsp) (hi : IsStreamCommand i)
      (abrt : s.abrt = false) (initd : s.initd = true) : Effect i s (respond rsp (drain n s).state)
  | abandoned (d : Word) (src : List Byte) (hi : i = .xor d src) (abrt : s.abrt = false)
      (initd : s.initd = true) (dry : (drain src.length s).dry = true) :
      Effect i s (raise .keystreamExhausted (latchAbort (drain src.length s).state))

theorem Effect.raised (i : Instr) (s : State) (k : ErrorKind)
    (seek : ∀ n, i = .seek n → ¬(s.abrt = false ∧ s.initd = true)) : Effect i s (raise k s) :=
  .answered [k.status] (responseLegal_error k) seek

/-- Every command has one of these effects. -/
theorem exec_effect (i : Instr) (s t : State) (h : exec i s = .next t) : Effect i s t := by
  cases i with
  | init r key nonce =>
    rcases execInit_cases r key nonce s with ⟨k, hx⟩ | ⟨ha, -, -, h0, h2, hx⟩
    all_goals obtain rfl := next_inj (hx.symm.trans h)
    · exact .raised _ s k nofun
    · exact .constructed r key nonce rfl ha h0 h2
  | gen =>
    rcases execGen_cases s with ⟨k, hx⟩ | ⟨ha, hi, he, hx⟩
    all_goals obtain rfl := next_inj (hx.symm.trans h)
    · exact .raised _ s k nofun
    · exact .generated rfl ha hi he
  | seek n =>
    rcases commonCheck_cases s with ⟨ha, -⟩ | ⟨ha, hi, -⟩ | ⟨ha, hi, -⟩
    · obtain rfl := next_inj ((exec_aborted (.seek n) s ha nofun).symm.trans h)
      exact .raised _ s _ fun _ _ hlive => by simp [ha] at hlive
    · obtain rfl := next_inj ((execSeek_uninit n s ha hi).symm.trans h)
      exact .raised _ s _ fun _ _ hlive => by simp [hi] at hlive
    · obtain rfl := next_inj ((execSeek_generates n s ha hi).symm.trans h)
      exact .sought n rfl ha hi
  | read k =>
    rcases execRead_cases k s with ⟨e, hx⟩ | ⟨ha, hi, hx⟩
    all_goals obtain rfl := next_inj (hx.symm.trans h)
    · exact .raised _ s e nofun
    · exact .served k.toNat _ (responseLegal_data _ _ (ite_eq_or_eq _ _ _).symm)
        (.inl ⟨k, rfl⟩) ha hi
  | xor d src =>
    rcases execXor_cases d src s with ⟨e, hx⟩ | ⟨ha, hi, -, hd, hx⟩ | ⟨ha, hi, -, -, hx⟩
    all_goals obtain rfl := next_inj (hx.symm.trans h)
    · exact .raised _ s e nofun
    · exact .abandoned d src rfl ha hi hd
    · exact .served src.length _ (responseLegal_data _ _ (.inl rfl)) (.inr ⟨d, src, rfl⟩) ha hi
  | stat =>
    obtain rfl := next_inj ((exec_stat s).symm.trans h)
    exact .answered _ (responseLegal_stat s) nofun

/-! ### The byte loop and the frame -/

theorem drain_rounds (n : Nat) (s : State) : (drain n s).state.rounds = s.rounds := by
  obtain ⟨-, h, -⟩ := drain_frame n s
  exact h

theorem drain_initd (n : Nat) (s : State) : (drain n s).state.initd = s.initd := by
  obtain ⟨-, -, h, -⟩ := drain_frame n s
  exact h

theorem drain_abrt (n : Nat) (s : State) : (drain n s).state.abrt = s.abrt := by
  obtain ⟨-, -, -, h, -⟩ := drain_frame n s
  exact h

theorem drain_inbox (n : Nat) (s : State) : (drain n s).state.inbox = s.inbox := by
  obtain ⟨-, -, -, -, h, -⟩ := drain_frame n s
  exact h

/-- The byte loop never clears `EXH`. -/
theorem drain_keeps_exh (n : Nat) (s : State) (h : s.exh = true) :
    (drain n s).state.exh = true := by
  refine drain_keeps (fun t => t.exh = true) ?_ n s h
  intro t b t' ht hn
  rcases nextByte_cases t with ⟨hc, hs⟩ | ⟨hc, he, hs⟩ | ⟨hc, he, hs⟩
  · obtain rfl := congrArg Prod.snd (Option.some.inj (hs.symm.trans hn))
    exact ht
  · simp [ht] at he
  · cases hs.symm.trans hn

/-- The block transform sets `EXH` only as the counter wraps to zero (41_block_transform.md R130). -/
theorem generate_exh_counter (s : State) (he : s.exh = false) (h : (generate s).exh = true) :
    counter (generate s).w = 0 :=
  generate_last_counter s ((generate_exh_iff s he).1 h)

/-- The byte loop sets `EXH` only as the counter wraps to zero. -/
theorem drain_exh_counter (n : Nat) (s : State) (he : s.exh = false)
    (h : (drain n s).state.exh = true) : counter (drain n s).state.w = 0 := by
  refine drain_keeps (fun t => t.exh = true → counter t.w = 0) ?_ n s (by simp [he]) h
  intro t b t' ht hn
  rcases nextByte_cases t with ⟨hc, hs⟩ | ⟨hc, he, hs⟩ | ⟨hc, he, hs⟩
  · obtain rfl := congrArg Prod.snd (Option.some.inj (hs.symm.trans hn))
    exact ht
  · obtain rfl := congrArg Prod.snd (Option.some.inj (hs.symm.trans hn))
    exact generate_exh_counter t he
  · cases hs.symm.trans hn

/-! ### O49, O48: the invariants (10_state.md R37) -/

/-- The invariants speak of registers alone. -/
theorem State.Inv.of_sameRegisters {s t : State} (h : s.Inv) (hst : s.SameRegisters t) : t.Inv where
  sigma := by simpa only [hst.initd, hst.w] using h.sigma
  outIsBlock := by simpa only [hst.initd, hst.cur, hst.out, hst.w, hst.rounds] using h.outIsBlock
  counterMoved := by simpa only [hst.initd, hst.cur, hst.exh, hst.w] using h.counterMoved
  exhCounter := by simpa only [hst.exh, hst.w] using h.exhCounter
  uninit := by simpa only [hst.initd, hst.cur, hst.exh, hst.abrt] using h.uninit
  roundsEven := by simpa only [hst.initd, hst.rounds] using h.roundsEven
  abortedDry := by simpa only [hst.abrt, hst.exh, hst.cur] using h.abortedDry

theorem State.Inv.respond {s : State} (h : s.Inv) (rsp : Packet) : (respond rsp s).Inv :=
  h.of_sameRegisters (respond_sameRegisters rsp s)

/-- Taking an event from the port changes no register. -/
theorem setInbox_sameRegisters (s : State) (rest : List PortEvent) :
    s.SameRegisters { s with inbox := rest } :=
  ⟨rfl, rfl, rfl, rfl, rfl, rfl, rfl, rfl⟩

/-- An engine not yet constructed, as R39 leaves it, keeps the invariants. -/
theorem inv_of_uninit (s : State) (hi : s.initd = false) (hc : s.cur.val = 64) (he : s.exh = false)
    (ha : s.abrt = false) : s.Inv where
  sigma h := by simp [hi] at h
  outIsBlock h := by simp [hi] at h
  counterMoved h := by simp [hi] at h
  exhCounter h := by simp [he] at h
  uninit _ := ⟨hc, he, ha⟩
  roundsEven h := by simp [hi] at h
  abortedDry h := by simp [ha] at h

/-- A constructed engine with nothing unread keeps the invariants: they speak of `OUT` only while it has unread
bytes. -/
theorem inv_of_empty (s : State) (hi : s.initd = true) (hc : s.cur.val = 64) (he : s.exh = false)
    (ha : s.abrt = false)
    (sigma : s.w[0] = sigma0 ∧ s.w[1] = sigma1 ∧ s.w[2] = sigma2 ∧ s.w[3] = sigma3)
    (rounds : s.rounds ≠ 0 ∧ s.rounds.toNat % 2 = 0) : s.Inv where
  sigma _ := sigma
  outIsBlock _ h := absurd h (by omega)
  counterMoved _ h := absurd h (by omega)
  exhCounter h := by simp [he] at h
  uninit h := by simp [hi] at h
  roundsEven _ := rounds
  abortedDry h := by simp [ha] at h

theorem construct_inv (r : Word) (key nonce : List Byte) (s : State) (ha : s.abrt = false)
    (h0 : r ≠ 0) (h2 : r.toNat % 2 = 0) : (construct r key nonce s).Inv :=
  inv_of_empty _ rfl rfl rfl ha ⟨rfl, rfl, rfl, rfl⟩ ⟨h0, h2⟩

/-- SEEK moves the counter under an `OUT` it is about to overwrite; the block transform, which reads neither `OUT`
nor `CUR`, does the same on an engine with nothing unread. -/
theorem generate_seekTo_inv (n : BlockIndex) (s : State) (h : s.Inv) (hi : s.initd = true)
    (ha : s.abrt = false) : (generate (seekTo n s)).Inv := by
  have hempty : ({ seekTo n s with cur := 64 } : State).Inv :=
    inv_of_empty _ hi rfl rfl ha (by simpa using h.sigma hi) (h.roundsEven hi)
  exact generate_inv { seekTo n s with cur := 64 } hempty hi ha rfl

/-- Latching `ABRT` in state DRY keeps the invariants. -/
theorem latchAbort_inv (s : State) (h : s.Inv) (hi : s.initd = true) (he : s.exh = true)
    (hc : s.cur.val = 64) : (latchAbort s).Inv where
  sigma := h.sigma
  outIsBlock := h.outIsBlock
  counterMoved := h.counterMoved
  exhCounter := h.exhCounter
  uninit hx := absurd hi (by simpa using hx)
  roundsEven := h.roundsEven
  abortedDry _ := ⟨he, hc⟩

theorem Effect.inv {i : Instr} {s t : State} (h : Effect i s t) (hs : s.Inv) : t.Inv := by
  cases h with
  | answered rsp _ _ => exact hs.respond rsp
  | constructed r key nonce _ ha h0 h2 => exact (construct_inv r key nonce s ha h0 h2).respond _
  | generated _ ha hi he => exact (generate_inv s hs hi ha he).respond _
  | sought n _ ha hi => exact (generate_seekTo_inv n s hs hi ha).respond _
  | served n rsp _ _ ha hi => exact (drain_inv n s hs hi ha).respond rsp
  | abandoned d src _ ha hi hd =>
    obtain ⟨he, hc⟩ := drain_dry_state _ s hd
    exact (latchAbort_inv _ (drain_inv _ s hs hi ha) ((drain_initd _ s).trans hi) he hc).respond _

/-- Settles O49: a step waits, executes a command, rejects a packet or resets, and each keeps the invariants. -/
theorem everyStepKeepsInvariant : Obligations.EveryStepKeepsInvariant := by
  unfold Obligations.EveryStepKeepsInvariant
  intro s t hs h
  rcases step_cases s with ⟨_, hx⟩ | ⟨_, rest, i, _, _, hx⟩ | ⟨_, rest, _, _, _, hx⟩ |
    ⟨_, rest, _, hx⟩
  · rw [← next_inj (hx.symm.trans h)]
    exact hs
  · exact (exec_effect i _ t (hx.symm.trans h)).inv
      (hs.of_sameRegisters (setInbox_sameRegisters s rest))
  · rw [← next_inj (hx.symm.trans h)]
    exact (hs.of_sameRegisters (setInbox_sameRegisters s rest)).respond _
  · rw [← next_inj (hx.symm.trans h)]
    exact inv_of_uninit _ rfl rfl rfl rfl

/-- Settles O48: at power-on nothing is constructed yet. -/
theorem invariantAtReset : Obligations.InvariantAtReset :=
  inv_of_uninit _ rfl rfl rfl rfl

/-! ### O41: the words and the round count that INIT writes (10_state.md section 2) -/

theorem sameInstanceWords_refl (s : State) : sameInstanceWords s s := fun _ _ _ => rfl

/-- Of the effects only INIT's construction, answered `OK`, writes these words. -/
theorem Effect.keeps_instance {i : Instr} {s t : State} (h : Effect i s t)
    (hi : (∃ r k n, i = .init r k n) → t.responses ≠ s.responses ++ [[0x00]]) :
    sameInstanceWords s t ∧ t.rounds = s.rounds := by
  cases h with
  | answered rsp _ _ => exact ⟨sameInstanceWords_refl s, rfl⟩
  | constructed r key nonce hinit _ _ _ => exact absurd rfl (hi ⟨r, key, nonce, hinit⟩)
  | generated _ _ _ _ => exact ⟨generate_sameInstanceWords s, generate_rounds s⟩
  | sought n _ _ _ =>
    exact ⟨generate_seekTo_sameInstanceWords n s, generate_rounds (seekTo n s)⟩
  | served n rsp _ _ _ _ => exact ⟨drain_sameInstanceWords n s, drain_rounds n s⟩
  | abandoned d src _ _ _ _ => exact ⟨drain_sameInstanceWords _ s, drain_rounds _ s⟩

/-- Settles O41: by the effects of the commands. -/
theorem onlyInitWritesInstanceWords : Obligations.OnlyInitWritesInstanceWords := fun i s t h =>
  (exec_effect i s t h).keeps_instance

/-! ### O40: how the flags change (10_state.md section 4) -/

theorem Effect.keeps_initd {i : Instr} {s t : State} (h : Effect i s t) (hi : s.initd = true) :
    t.initd = true := by
  cases h with
  | answered rsp _ _ => exact hi
  | constructed r key nonce _ _ _ _ => rfl
  | generated _ _ _ _ => exact (generate_initd s).trans hi
  | sought n _ _ _ => exact (generate_initd (seekTo n s)).trans hi
  | served n rsp _ _ _ _ => exact (drain_initd n s).trans hi
  | abandoned d src _ _ _ _ => exact (drain_initd _ s).trans hi

/-- Every effect on an engine not yet constructed is an answer alone or INIT's construction. -/
theorem Effect.initd_rises {i : Instr} {s t : State} (h : Effect i s t) (hs : s.initd = false)
    (ht : t.initd = true) :
    (∃ r k n, i = .init r k n) ∧ t.responses = s.responses ++ [[0x00]] := by
  cases h with
  | answered rsp _ _ => exact absurd ht (by simp [hs])
  | constructed r key nonce hi _ _ _ => exact ⟨⟨r, key, nonce, hi⟩, rfl⟩
  | generated _ _ hi _ => exact absurd hi (by simp [hs])
  | sought n _ _ hi => exact absurd hi (by simp [hs])
  | served n rsp _ _ _ hi => exact absurd hi (by simp [hs])
  | abandoned d src _ _ hi _ => exact absurd hi (by simp [hs])

theorem Effect.exh_rises {i : Instr} {s t : State} (h : Effect i s t) (hs : s.exh = false)
    (ht : t.exh = true) : counter t.w = 0 ∧
      (i = .gen ∨ (∃ n, i = .seek n) ∨ (∃ k, i = .read k) ∨ ∃ d src, i = .xor d src) := by
  cases h with
  | answered rsp _ _ => exact absurd ht (by simp [hs])
  | constructed r key nonce _ _ _ _ => cases ht
  | generated hi _ _ _ => exact ⟨generate_exh_counter s hs ht, .inl hi⟩
  | sought n hi _ _ => exact ⟨generate_exh_counter (seekTo n s) rfl ht, .inr (.inl ⟨n, hi⟩)⟩
  | served n rsp _ hi _ _ => exact ⟨drain_exh_counter n s hs ht, .inr (.inr hi)⟩
  | abandoned d src hi _ _ _ =>
    exact ⟨drain_exh_counter _ s hs ht, .inr (.inr (.inr ⟨d, src, hi⟩))⟩

theorem Effect.exh_falls {i : Instr} {s t : State} (h : Effect i s t) (hs : s.exh = true)
    (ht : t.exh = false) : (∃ n, i = .seek n) ∨ ∃ r k n, i = .init r k n := by
  cases h with
  | answered rsp _ _ => exact absurd ht (by simp [hs])
  | constructed r key nonce hi _ _ _ => exact .inr ⟨r, key, nonce, hi⟩
  | generated _ _ _ he => exact absurd he (by simp [hs])
  | sought n hi _ _ => exact .inl ⟨n, hi⟩
  | served n rsp _ _ _ _ => exact absurd ht (by simp [drain_keeps_exh n s hs])
  | abandoned d src _ _ _ _ => exact absurd ht (by simp [drain_keeps_exh _ s hs])

theorem Effect.abrt_rises {i : Instr} {s t : State} (h : Effect i s t) (hs : s.abrt = false)
    (ht : t.abrt = true) :
    (∃ d src, i = .xor d src) ∧ t.responses = s.responses ++ [[0x84]] := by
  cases h with
  | answered rsp _ _ => exact absurd ht (by simp [hs])
  | constructed r key nonce _ _ _ _ => exact absurd ht (by simp [hs])
  | generated _ _ _ _ => exact absurd ht (by simp [hs])
  | sought n _ _ _ => exact absurd ht (by simp [hs])
  | served n rsp _ _ _ _ => exact absurd ht (by simp [drain_abrt, hs])
  | abandoned d src hi _ _ _ =>
    refine ⟨⟨d, src, hi⟩, ?_⟩
    rw [raise_responses, latchAbort_responses, drain_responses]
    rfl

/-- Settles O40: each flag's rise and fall is read off the effects. -/
theorem flagsChangeOnlyAsGiven : Obligations.FlagsChangeOnlyAsGiven := by
  unfold Obligations.FlagsChangeOnlyAsGiven
  intro i s t h
  have he := exec_effect i s t h
  exact ⟨he.keeps_initd, he.initd_rises, he.exh_rises, he.exh_falls,
    fun ha => exec_keeps_abrt i s t ha h, he.abrt_rises⟩

/-! ### O39: the operating states (60_exceptions.md section 6) -/

theorem opState_aborted (s : State) (ha : s.abrt = true) : opState s = .aborted := by
  simp [opState, ha]

theorem opState_uninit (s : State) (ha : s.abrt = false) (hi : s.initd = false) :
    opState s = .uninit := by
  simp [opState, ha, hi]

theorem opState_ready (s : State) (ha : s.abrt = false) (hi : s.initd = true)
    (he : s.exh = false) : opState s = .ready := by
  simp [opState, ha, hi, he]

theorem opState_last (s : State) (ha : s.abrt = false) (hi : s.initd = true) (he : s.exh = true)
    (hc : s.cur.val < 64) : opState s = .last := by
  simp [opState, ha, hi, he, hc]

theorem opState_dry (s : State) (ha : s.abrt = false) (hi : s.initd = true) (he : s.exh = true)
    (hc : ¬s.cur.val < 64) : opState s = .dry := by
  simp [opState, ha, hi, he, hc]

/-- The states of an initialised, un-aborted engine. -/
theorem opState_live_cases (s : State) (ha : s.abrt = false) (hi : s.initd = true) :
    (s.exh = false ∧ opState s = .ready) ∨ (s.exh = true ∧ s.cur.val < 64 ∧ opState s = .last) ∨
    (s.exh = true ∧ ¬s.cur.val < 64 ∧ opState s = .dry) := by
  cases he : s.exh with
  | false => exact .inl ⟨rfl, opState_ready s ha hi he⟩
  | true =>
    by_cases hc : s.cur.val < 64
    · exact .inr (.inl ⟨rfl, hc, opState_last s ha hi he hc⟩)
    · exact .inr (.inr ⟨rfl, hc, opState_dry s ha hi he hc⟩)

theorem live_of_opState_dry (s : State) (h : opState s = .dry) :
    s.abrt = false ∧ s.initd = true := by
  cases ha : s.abrt with
  | true => simp [opState_aborted s ha] at h
  | false =>
    cases hi : s.initd with
    | false => simp [opState_uninit s ha hi] at h
    | true => exact ⟨rfl, rfl⟩

/-- Every command but SEEK in state DRY may leave the engine in the state it finds, as an error does. -/
theorem mem_after_self (i : Instr) (o : OpState) (h : o = .dry → ∀ n, i ≠ .seek n) :
    o ∈ o.after i := by
  cases i with
  | seek n =>
    cases o with
    | dry => exact absurd rfl (h rfl n)
    | _ => simp [OpState.after]
  | _ => cases o <;> simp [OpState.after]

theorem ready_mem_after_init (r : Word) (key nonce : List Byte) (o : OpState)
    (ho : o ≠ .aborted) : .ready ∈ o.after (.init r key nonce) := by
  cases o with
  | aborted => exact absurd rfl ho
  | _ => simp [OpState.after]

/-- A block transform leaves a whole unread block: READY, or LAST when the counter wrapped. -/
theorem opState_generate (s : State) (ha : s.abrt = false) (hi : s.initd = true) :
    opState (generate s) = .ready ∨ opState (generate s) = .last := by
  rcases opState_live_cases (generate s) ((generate_abrt s).trans ha)
    ((generate_initd s).trans hi) with ⟨_, h⟩ | ⟨_, _, h⟩ | ⟨_, hc, _⟩
  · exact .inl h
  · exact .inr h
  · exact absurd hc (by simp)

/-- READ and XOR, when they complete, go forward along READY, LAST, DRY. -/
theorem opState_drain_mem_after (i : Instr) (hi : IsStreamCommand i) (n : Nat) (s : State)
    (ha : s.abrt = false) (hin : s.initd = true) :
    opState (drain n s).state ∈ (opState s).after i := by
  have hkeep := drain_keeps_exh n s
  have hafter := opState_live_cases (drain n s).state ((drain_abrt n s).trans ha)
    ((drain_initd n s).trans hin)
  rcases opState_live_cases s ha hin with ⟨_, ho⟩ | ⟨he, _, ho⟩ | ⟨he, hc, ho⟩
  · rw [ho]
    rcases hi with ⟨k, rfl⟩ | ⟨d, src, rfl⟩ <;>
      rcases hafter with ⟨_, h⟩ | ⟨_, _, h⟩ | ⟨_, _, h⟩ <;> simp [h, OpState.after]
  · rw [ho]
    rcases hafter with ⟨he', _⟩ | ⟨_, _, h⟩ | ⟨_, _, h⟩
    · simp [hkeep he] at he'
    · rcases hi with ⟨k, rfl⟩ | ⟨d, src, rfl⟩ <;> simp [h, OpState.after]
    · rcases hi with ⟨k, rfl⟩ | ⟨d, src, rfl⟩ <;> simp [h, OpState.after]
  · rw [drain_nothing_left n s ((nextByte_none_iff s).1 (nextByte_dry s hc he))]
    refine mem_after_self i (opState s) fun _ n hn => ?_
    rcases hi with ⟨k, rfl⟩ | ⟨d, src, rfl⟩ <;> cases hn

theorem Effect.opState_mem_after {i : Instr} {s t : State} (h : Effect i s t) :
    opState t ∈ (opState s).after i := by
  cases h with
  | answered rsp _ seek =>
    exact mem_after_self i (opState s) fun ho n hn => seek n hn (live_of_opState_dry s ho)
  | constructed r key nonce hi ha _ _ =>
    subst hi
    have hready : opState (respond [statusOk] (construct r key nonce s)) = .ready :=
      opState_ready _ ha rfl rfl
    rw [hready]
    refine ready_mem_after_init r key nonce _ ?_
    cases hin : s.initd with
    | false => simp [opState_uninit s ha hin]
    | true =>
      rcases opState_live_cases s ha hin with ⟨_, ho⟩ | ⟨_, _, ho⟩ | ⟨_, _, ho⟩ <;> simp [ho]
  | generated hi ha hin he =>
    subst hi
    change opState (generate s) ∈ _
    rw [opState_ready s ha hin he]
    rcases opState_generate s ha hin with h | h <;> simp [h, OpState.after]
  | sought n hi ha hin =>
    subst hi
    change opState (generate (seekTo n s)) ∈ _
    rcases opState_live_cases s ha hin with ⟨_, ho⟩ | ⟨_, _, ho⟩ | ⟨_, _, ho⟩ <;>
      rcases opState_generate (seekTo n s) ha hin with h | h <;> simp [ho, h, OpState.after]
  | served n rsp _ hi ha hin => exact opState_drain_mem_after i hi n s ha hin
  | abandoned d src hi ha hin _ =>
    subst hi
    rw [opState_aborted (raise _ (latchAbort _)) rfl]
    rcases opState_live_cases s ha hin with ⟨_, ho⟩ | ⟨_, _, ho⟩ | ⟨_, _, ho⟩ <;>
      simp [ho, OpState.after]

/-- Settles O39: by the effects of the commands. -/
theorem operatingStateTransitions : Obligations.OperatingStateTransitions := fun i s t h =>
  (exec_effect i s t h).opState_mem_after

/-! ### O47: one legal response to every packet (30_encoding.md R71, R85) -/

theorem Effect.answers {i : Instr} {s t : State} (h : Effect i s t) :
    ∃ rsp, t.inbox = s.inbox ∧ t.responses = s.responses ++ [rsp] ∧ responseLegal rsp := by
  cases h with
  | answered rsp legal _ => exact ⟨rsp, rfl, rfl, legal⟩
  | constructed r key nonce _ _ _ _ => exact ⟨_, rfl, rfl, responseLegal_ok⟩
  | generated _ _ _ _ => exact ⟨_, generate_inbox s, by simp, responseLegal_ok⟩
  | sought n _ _ _ => exact ⟨_, generate_inbox (seekTo n s), by simp, responseLegal_ok⟩
  | served n rsp legal _ _ _ => exact ⟨rsp, drain_inbox n s, by simp [drain_responses], legal⟩
  | abandoned d src _ _ _ _ =>
    exact ⟨_, drain_inbox _ s, by simp [drain_responses],
      responseLegal_error .keystreamExhausted⟩

/-- Settles O47: a packet is a command, answered by its effect, or is refused with 0x88. -/
theorem everyPacketAnsweredOnce : Obligations.EveryPacketAnsweredOnce := by
  unfold Obligations.EveryPacketAnsweredOnce
  intro cmd rest s hin
  cases hd : decode cmd with
  | ok i =>
    obtain ⟨t, ht⟩ := exec_next i { s with inbox := rest }
    obtain ⟨rsp, hbox, hrsp, hlegal⟩ := (exec_effect i _ t ht).answers
    exact ⟨t, rsp, (step_packet_ok s cmd rest i hin hd).trans ht, hbox, hrsp, hlegal⟩
  | error e =>
    exact ⟨_, _, step_packet_error s cmd rest e hin hd, rfl, rfl, responseLegal_error _⟩

/-! ### O44: hardware reset (70_reset_and_hazards.md R210) -/

/-- A step that clears `INITD` took a reset. -/
theorem step_clears_initd (s t : State) (hi : s.initd = true) (h : step s = .next t)
    (ht : t.initd = false) : ∃ c rest, s.inbox = .reset c :: rest := by
  rcases step_cases s with ⟨_, hx⟩ | ⟨_, rest, i, _, _, hx⟩ | ⟨_, rest, _, _, _, hx⟩ |
    ⟨c, rest, hin, _⟩
  · rw [← next_inj (hx.symm.trans h)] at ht
    simp [hi] at ht
  · have hkept := (exec_effect i _ t (hx.symm.trans h)).keeps_initd hi
    simp [ht] at hkept
  · rw [← next_inj (hx.symm.trans h)] at ht
    simp [hi] at ht
  · exact ⟨c, rest, hin⟩

/-- Settles O44: the reset does not look at the command it cuts short; no other step clears the two flags. -/
theorem hardwareResetEffects : Obligations.HardwareResetEffects := by
  unfold Obligations.HardwareResetEffects
  constructor
  · intro c rest s hin
    exact ⟨_, step_reset s c rest hin, rfl, rfl, rfl, rfl, rfl, step_reset _ none rest rfl⟩
  · rintro s t h (⟨hi, ht⟩ | ⟨ha, ht⟩)
    · exact step_clears_initd s t hi h ht
    · exact step_clears_abrt s t ha h ht

/-! ### O43, O45, O46: waiting, and the first answers after a reset (R39, R211) -/

theorem step_waits (s : State) (h : s.inbox = []) : step s = .next s := by
  simp only [step, takeEvent, h, wait_eq]

/-- Settles O43: nothing is pending, so nothing is taken. -/
theorem waitingKeepsAllState : Obligations.WaitingKeepsAllState :=
  step_waits

/-- Settles O45: the fields of the power-on state. -/
theorem resetStateAsGiven : Obligations.ResetStateAsGiven :=
  ⟨rfl, rfl, rfl, rfl, opState_uninit _ rfl rfl⟩

/-- STAT's answer before the first INIT: only `CUR` shows. -/
theorem statResponse_uninit (s : State) (hi : s.initd = false) (he : s.exh = false)
    (ha : s.abrt = false) (hc : s.cur = 64) :
    statResponse s = [0x00, 0x00, 0x40, 0, 0, 0, 0, 0, 0, 0, 0, 0, 0, 0, 0] := by
  rw [statResponse_eq, statMasked_uninit s _ hi, statMasked_uninit s _ hi, statMasked_uninit s _ hi,
    statFlags, hi, he, ha, hc]
  rfl

/-- The flags and `CUR` of both resets (R39, R210). -/
theorem reset_flags (s : State) (h : s = State.reset ∨ ∃ r : State, s = hardwareReset r) :
    s.initd = false ∧ s.exh = false ∧ s.abrt = false ∧ s.cur = 64 := by
  rcases h with rfl | ⟨r, rfl⟩
  · exact ⟨rfl, rfl, rfl, rfl⟩
  · exact ⟨rfl, rfl, rfl, rfl⟩

/-- Settles O46: the answers depend on the flags and `CUR` alone, which both resets set alike. -/
theorem firstAnswersAfterReset : Obligations.FirstAnswersAfterReset := by
  unfold Obligations.FirstAnswersAfterReset
  intro s h
  obtain ⟨hi, he, ha, hc⟩ := reset_flags s h
  refine ⟨opState_uninit s ha hi, step_waits s, ?_, execGen_uninit s ha hi,
    fun n => execSeek_uninit n s ha hi, fun k => execRead_uninit k s ha hi,
    fun d src => execXor_uninit d src s ha hi⟩
  rw [exec_stat, statResponse_uninit s hi he ha hc]

end Sys2Proof.Machine

/-! PROOFS. The obligations of 43_stream_ops.md on READ and XOR. Both are the byte loop and a response, so each is
read off what the loop serves: how many bytes, which keystream bytes, the same bytes when it is split, and the same
bytes from the same registers. -/

namespace Sys2Proof.Machine

/-! ### O27, O28, O31: how many bytes READ delivers (R162, R218) -/

/-- The byte loop runs dry exactly when it serves fewer bytes than asked. -/
theorem drain_dry_iff_short (n : Nat) (s : State) :
    (drain n s).dry = true ↔ (drain n s).data.length < n := by
  obtain ⟨hlen, hdry, -⟩ := drain_counts n s
  rw [hdry, hlen]
  omega

/-- READ's status: `EOS` exactly when the byte loop ran dry (R164). -/
def readStatus (dry : Bool) : Byte :=
  if dry then statusEos else statusOk

theorem readStatus_eq_eos_iff (dry : Bool) : readStatus dry = 0x01 ↔ dry = true := by
  cases dry <;> decide

/-- The response of a READ of `n` bytes that passes the common checks. -/
def readResponse (n : Nat) (s : State) : Packet :=
  dataResponse (readStatus (drain n s).dry) (drain n s).data

theorem execRead_live (k : Word) (s : State) (ha : s.abrt = false) (hi : s.initd = true) :
    exec (.read k) s = .next (respond (readResponse k.toNat s) (drain k.toNat s).state) :=
  execRead_passed k s ha hi

theorem readStatus_drain (n : Nat) (s : State) :
    readStatus (drain n s).dry = if (drain n s).data.length < n then 0x01 else 0x00 :=
  if_congr (drain_dry_iff_short n s) rfl rfl

/-- Settles O27: the counts of the byte loop, and its frame. -/
theorem readCompletesAndCounts : Obligations.ReadCompletesAndCounts := by
  unfold Obligations.ReadCompletesAndCounts
  intro k s ha hi
  obtain ⟨hlen, -, hleft⟩ := drain_counts k.toNat s
  refine ⟨_, (drain k.toNat s).data, execRead_live k s ha hi, hlen, ?response, ?left,
    drain_sameInstanceWords _ s, drain_rounds _ s, (drain_initd _ s).trans hi,
    (drain_abrt _ s).trans ha, drain_inbox _ s⟩
  case response =>
    rw [respond_responses, drain_responses, readResponse, dataResponse, readStatus_drain]
  case left =>
    change bytesLeft (drain k.toNat s).state = _
    rw [hleft, hlen]
    omega

/-- Settles O28: within the block in hand the byte loop only moves `CUR`. -/
theorem readWithinBlock : Obligations.ReadWithinBlock := by
  unfold Obligations.ReadWithinBlock
  intro k s ha hi hfit
  have hlen : ((s.out.toList.drop s.cur.val).take k.toNat).length = k.toNat := by
    rw [List.length_take, List.length_drop, Vector.length_toList]
    omega
  refine ⟨_, execRead_live k s ha hi, ?_⟩
  rw [readResponse, drain_unread k.toNat s hfit, dataResponse, hlen]
  exact ⟨rfl, rfl, rfl, rfl, rfl, rfl, rfl, rfl, rfl, rfl⟩

/-- Settles O31: the byte loop of no bytes changes nothing, whatever is left. -/
theorem emptyRequestsChangeNothing : Obligations.EmptyRequestsChangeNothing := by
  unfold Obligations.EmptyRequestsChangeNothing
  intro s ha hi
  have hread : drain (0 : Word).toNat s = _ := drain_zero s
  have hxor : drain ([] : List Byte).length s = _ := drain_zero s
  have hnone : dataResponse statusOk [] = [0x00, 0, 0, 0, 0] := by decide
  constructor
  · rw [execRead_live 0 s ha hi, readResponse, hread, ← hnone]
    rfl
  · rw [execXor_served 0 [] s ha hi rfl (by rw [hxor]), hxor, ← hnone]
    rfl

/-! ### O29: the bytes are the keystream from the position on (R163) -/

/-- Only the counter words of `W` move, and a keystream byte does not depend on them. -/
theorem nextByte_keystreamByte (s : State) (b : Byte) (s' : State) (hn : nextByte s = some (b, s'))
    (q : Nat) : keystreamByte s'.w s'.rounds q = keystreamByte s.w s.rounds q := by
  obtain ⟨-, hrounds, -⟩ := nextByte_frame s b s' hn
  simp only [keystreamByte, hrounds, nextByte_setCounter s b s' hn]

theorem drain_keystream (n : Nat) (s : State) (h : s.Inv) (hi : s.initd = true)
    (ha : s.abrt = false) :
    (drain n s).data = (List.range (min n (bytesLeft s))).map
      fun i => keystreamByte s.w s.rounds (streamPos s + i) := by
  induction n generalizing s with
  | zero => simp [drain_zero]
  | succ n ih =>
    cases hn : nextByte s with
    | none => simp [drain_dry n s hn, (nextByte_none_iff s).1 hn]
    | some r =>
      obtain ⟨-, -, hi', ha', -⟩ := nextByte_frame s r.1 r.2 hn
      have htail := ih r.2 (nextByte_inv s h hi ha r.1 r.2 hn) (hi'.trans hi) (ha'.trans ha)
      have hmin : min (n + 1) (bytesLeft s) = min n (bytesLeft r.2) + 1 := by
        rw [nextByte_bytesLeft s r.1 r.2 hn]
        omega
      have hshift : ∀ i, streamPos s + 1 + i = streamPos s + (i + 1) := fun i => by omega
      rw [drain_served n s r.2 r.1 hn, htail, hmin, List.range_succ_eq_map, List.map_cons,
        List.map_map, Nat.add_zero, ← nextByte_keystream s h hi r.1 r.2 hn]
      simp only [nextByte_keystreamByte s r.1 r.2 hn, nextByte_streamPos s h hi r.1 r.2 hn, hshift,
        Function.comp_def, Nat.succ_eq_add_one]

/-- What is left is what the position has not passed (R163, R218). -/
theorem bytesLeft_eq_sub_streamPos (s : State) (h : s.Inv) (hi : s.initd = true) :
    bytesLeft s = 2 ^ 70 - streamPos s := by
  have hle := bytesLeft_le s h hi
  rw [streamPos]
  omega

/-- The byte loop moves the position over the bytes it serves. -/
theorem drain_streamPos (n : Nat) (s : State) (h : s.Inv) (hi : s.initd = true) :
    streamPos (drain n s).state = streamPos s + (drain n s).data.length := by
  obtain ⟨hlen, -, hleft⟩ := drain_counts n s
  have hle := bytesLeft_le s h hi
  rw [streamPos, streamPos, hleft, hlen]
  omega

/-- Settles O29: each byte served is the keystream byte at the position, which it moves on by one. -/
theorem readDeliversKeystream : Obligations.ReadDeliversKeystream := by
  unfold Obligations.ReadDeliversKeystream
  intro k s h ha hi
  refine ⟨_, readStatus (drain k.toNat s).dry, (drain k.toNat s).data, execRead_live k s ha hi, ?_, ?_,
    drain_streamPos _ s h hi⟩
  · rw [respond_responses, drain_responses]
    rfl
  · rw [drain_keystream k.toNat s h hi ha, bytesLeft_eq_sub_streamPos s h hi]

/-! ### O30: splitting a READ (R163) -/

/-- Splitting the byte loop, dry or not: once dry, the second part serves nothing. -/
theorem drain_split (m n : Nat) (s : State) :
    (drain (m + n) s).data = (drain m s).data ++ (drain n (drain m s).state).data ∧
    (drain (m + n) s).state = (drain n (drain m s).state).state ∧
    ((drain (m + n) s).dry = true ↔
      (drain m s).dry = true ∨ (drain n (drain m s).state).dry = true) := by
  cases hd : (drain m s).dry with
  | false => simp [drain_add m n s hd]
  | true =>
    obtain ⟨-, hdry, hleft⟩ := drain_counts m s
    have hnone : bytesLeft (drain m s).state = 0 := by
      have hlt := hdry.mp hd
      omega
    have hdata : (drain n (drain m s).state).data = [] := by
      obtain ⟨hlen, -, -⟩ := drain_counts n (drain m s).state
      rw [hnone, Nat.min_zero] at hlen
      exact List.length_eq_zero_iff.mp hlen
    simp [drain_dry_add m n s hd, hd, hdata, drain_nothing_left n _ hnone]

/-- Settles O30: a READ that follows another runs the byte loop from where the first left it. -/
theorem splitReadsDeliverTheSame : Obligations.SplitReadsDeliverTheSame := by
  unfold Obligations.SplitReadsDeliverTheSame
  intro a b c s t u v hsum ha hi ht hu hv
  obtain ⟨hdata, hstate, hdry⟩ := drain_split a.toNat b.toNat s
  rw [hsum] at hdata hstate hdry
  obtain rfl := next_inj ((execRead_live a s ha hi).symm.trans ht)
  obtain rfl := next_inj ((execRead_live b (respond _ _) ((drain_abrt a.toNat s).trans ha)
    ((drain_initd a.toNat s).trans hi)).symm.trans hu)
  obtain rfl := next_inj ((execRead_live c s ha hi).symm.trans hv)
  rw [readResponse, readResponse, readResponse, drain_respond, hdata, hstate]
  refine ⟨⟨rfl, rfl, rfl, rfl, rfl, rfl, rfl, rfl⟩, readStatus (drain a.toNat s).dry,
    readStatus (drain b.toNat (drain a.toNat s).state).dry, readStatus (drain c.toNat s).dry,
    (drain a.toNat s).data, (drain b.toNat (drain a.toNat s).state).data, ?_, ?_, ?_⟩
  · simp only [respond_responses, drain_responses, List.append_assoc]
    rfl
  · simp only [respond_responses, drain_responses]
    rfl
  · simp only [readStatus_eq_eos_iff, hdry]

/-! ### O32, O33, O35: XOR (R165, R166, R168) -/

/-- With enough keystream left the byte loop serves all it is asked for. -/
theorem drain_enough (n : Nat) (s : State) (h : n ≤ bytesLeft s) :
    (drain n s).dry = false ∧ (drain n s).data.length = n := by
  obtain ⟨hlen, hdry, -⟩ := drain_counts n s
  refine ⟨?_, by omega⟩
  rw [← Bool.not_eq_true, hdry]
  omega

theorem zipWith_xor8_length (src ks : List Byte) (h : ks.length = src.length) :
    (List.zipWith xor8 src ks).length = src.length := by
  rw [List.length_zipWith, h, Nat.min_self]

/-- XOR with enough keystream left, as its response and the byte loop's state. -/
theorem execXor_enough (dstLen : Word) (src : List Byte) (s : State) (ha : s.abrt = false)
    (hi : s.initd = true) (hl : src.length = dstLen.toNat) (h : src.length ≤ bytesLeft s) :
    exec (.xor dstLen src) s = .next (respond (0x00 :: (leBytes 4 src.length ++
      List.zipWith xor8 src (drain src.length s).data)) (drain src.length s).state) := by
  obtain ⟨hdry, hlen⟩ := drain_enough src.length s h
  rw [execXor_served dstLen src s ha hi hl.symm hdry, dataResponse, zipWith_xor8_length _ _ hlen]
  rfl

/-- Settles O32: READ and XOR run the same byte loop. -/
theorem xorIsReadCombinedWithSource : Obligations.XorIsReadCombinedWithSource := by
  unfold Obligations.XorIsReadCombinedWithSource
  intro dstLen src s ha hi hl hleft
  obtain ⟨hdry, hlen⟩ := drain_enough src.length s hleft
  refine ⟨_, (drain src.length s).data, hlen, ?_, execXor_enough dstLen src s ha hi hl hleft,
    drain_responses _ s⟩
  rw [execRead_live dstLen s ha hi, readResponse, ← hl, hdry, dataResponse, hlen]
  rfl

/-- Settles O33: the byte loop runs dry, which leaves state DRY, and the invariant gives the counter. -/
theorem xorBeyondTheEndAborts : Obligations.XorBeyondTheEndAborts := by
  unfold Obligations.XorBeyondTheEndAborts
  intro dstLen src s h ha hi hl hleft
  obtain ⟨-, hdry, -⟩ := drain_counts src.length s
  have hd := hdry.mpr hleft
  obtain ⟨hexh, hcur⟩ := drain_dry_state src.length s hd
  refine ⟨_, _, execXor_dry dstLen src s ha hi hl.symm hd, execRead_live dstLen s ha hi, ?_⟩
  rw [← hl]
  refine ⟨?response, rfl, hexh, Fin.ext hcur, (drain_inv src.length s h hi ha).exhCounter hexh,
    rfl, rfl, rfl, rfl, rfl, rfl, rfl, drain_inbox _ s, fun i hstat => exec_aborted i _ rfl hstat⟩
  case response =>
    rw [raise_responses, latchAbort_responses, drain_responses]
    rfl

theorem zipWith_xor8_self (src ks : List Byte) (h : ks.length = src.length) :
    List.zipWith xor8 (List.zipWith xor8 src ks) ks = src := by
  induction src generalizing ks with
  | nil => simp
  | cons b src ih =>
    cases ks with
    | nil => cases h
    | cons k ks =>
      have hcancel : xor8 (xor8 b k) k = b := by simp [xor8]
      rw [List.zipWith_cons_cons, List.zipWith_cons_cons, hcancel, ih ks (Nat.succ.inj h)]

/-! The byte loop does not look at the port. -/

theorem nextByte_setInbox (l : List PortEvent) (s : State) :
    nextByte { s with inbox := l } = (nextByte s).map fun r => (r.1, { r.2 with inbox := l }) := by
  rcases nextByte_cases s with ⟨hc, hs⟩ | ⟨hc, he, hs⟩ | ⟨hc, he, hs⟩
  · rw [hs, nextByte_unread { s with inbox := l } hc]
    rfl
  · have hgen : generate { s with inbox := l } = { generate s with inbox := l } := by
      simp only [generate]
    rw [hs, nextByte_refill { s with inbox := l } hc he, hgen]
    rfl
  · rw [hs, nextByte_dry { s with inbox := l } hc he]
    rfl

theorem drain_setInbox_data (l : List PortEvent) (n : Nat) (s : State) :
    (drain n { s with inbox := l }).data = (drain n s).data := by
  induction n generalizing s with
  | zero => rfl
  | succ n ih =>
    have hl := nextByte_setInbox l s
    cases hn : nextByte s with
    | none =>
      rw [hn] at hl
      rw [drain_dry n s hn, drain_dry n { s with inbox := l } hl]
    | some r =>
      rw [hn] at hl
      rw [drain_served n s r.2 r.1 hn, drain_served n _ { r.2 with inbox := l } r.1 hl, ih]

/-- Engines with the same registers are alike but for what is pending. -/
theorem alike_of_sameRegisters {s s' : State} (h : s.SameRegisters s') :
    s.Alike { s' with inbox := s.inbox } :=
  ⟨rfl, h.initd.symm, h.exh.symm, h.abrt.symm, h.cur.symm, fun _ => h.w.symm, fun _ => h.rounds.symm,
    fun _ _ => h.out.symm⟩

/-- The bytes served depend on the registers alone. -/
theorem drain_data_of_sameRegisters {s s' : State} (h : s.SameRegisters s') (hi : s.initd = true)
    (n : Nat) : (drain n s').data = (drain n s).data := by
  obtain ⟨hdata, -, -⟩ := drain_alike n s _ (alike_of_sameRegisters h) hi
  exact (drain_setInbox_data s.inbox n s').symm.trans hdata.symm

theorem bytesLeft_of_sameRegisters {s s' : State} (h : s.SameRegisters s') :
    bytesLeft s' = bytesLeft s := by
  simp only [bytesLeft, h.exh, h.cur, h.w]

/-- Settles O35: both engines serve the same bytes, which cancel. -/
theorem xorUndoesItself : Obligations.XorUndoesItself := by
  unfold Obligations.XorUndoesItself
  intro dstLen src s s' hsame ha hi hl hleft
  obtain ⟨-, hks⟩ := drain_enough src.length s hleft
  have hlen := zipWith_xor8_length src _ hks
  have hleft' : src.length ≤ bytesLeft s' := by rwa [bytesLeft_of_sameRegisters hsame]
  refine ⟨_, _, _, hlen, execXor_enough dstLen src s ha hi hl hleft, ?first,
    execXor_enough dstLen _ s' (hsame.abrt.trans ha) (hsame.initd.trans hi) (hlen.trans hl)
      (by rwa [hlen]), ?second⟩
  case first =>
    rw [respond_responses, drain_responses]
  case second =>
    rw [respond_responses, drain_responses, hlen, drain_data_of_sameRegisters hsame hi,
      zipWith_xor8_self src _ hks]

end Sys2Proof.Machine

/-! PROOFS. The block transform's effects (R130), INIT and SEEK repeated or on longer operands, and where SEEK
leaves the stream: the construction last made answers, and a byte offset is reached. -/

namespace Sys2Proof.Machine

/-! ### O18: the block transform (R130) -/

/-- Settles O18: the fields of `generate`. -/
theorem blockTransformEffects : Obligations.BlockTransformEffects := by
  unfold Obligations.BlockTransformEffects
  intro s
  refine ⟨block_exhausted s, fun he => ?_⟩
  exact ⟨generate s, block_generates s he, generate_out s, generate_counter_toNat s,
    generate_exh_iff s he, generate_cur s, generate_sameInstanceWords s, generate_rounds s,
    generate_initd s, generate_abrt s, generate_inbox s, generate_responses s⟩

/-! ### O22: INIT on longer operands (42_init_seek_stat.md section 1) -/

theorem fieldAt_take (bs : List Byte) (offset size n : Nat) (h : offset + size ≤ n) :
    fieldAt (bs.take n) offset size = fieldAt bs offset size := by
  rw [fieldAt, fieldAt, List.drop_take, List.take_take, Nat.min_eq_left (by omega)]

theorem wordAt_take (bs : List Byte) (offset n : Nat) (h : offset + 4 ≤ n) :
    wordAt (bs.take n) offset = wordAt bs offset := by
  rw [wordAt, wordAt, fieldAt_take bs offset 4 n h]

/-- The words are made of the first 32 key bytes and the first 8 nonce bytes. -/
theorem instanceWords_take (key nonce : List Byte) (n : BlockIndex) :
    instanceWords (key.take 32) (nonce.take 8) n = instanceWords key nonce n := by
  simp only [instanceWords]
  rw [wordAt_take key 0 32 (by decide), wordAt_take key 4 32 (by decide),
    wordAt_take key 8 32 (by decide), wordAt_take key 12 32 (by decide),
    wordAt_take key 16 32 (by decide), wordAt_take key 20 32 (by decide),
    wordAt_take key 24 32 (by decide), wordAt_take key 28 32 (by decide),
    wordAt_take nonce 0 8 (by decide), wordAt_take nonce 4 8 (by decide)]

theorem initCheck_take (rounds : Word) (key nonce : List Byte) (hk : 32 ≤ key.length)
    (hn : 8 ≤ nonce.length) :
    initCheck rounds (key.take 32) (nonce.take 8) = initCheck rounds key nonce := by
  have hk' : (key.take 32).length = 32 := List.length_take_of_le hk
  have hn' : (nonce.take 8).length = 8 := List.length_take_of_le hn
  simp [initCheck, Config.keyBytes, Config.nonceBytes, hk', hn', hk.not_gt, hn.not_gt]

/-- Settles O22: neither INIT's checks nor the words it writes look at the bytes beyond. -/
theorem initIgnoresExtraBytes : Obligations.InitIgnoresExtraBytes := by
  unfold Obligations.InitIgnoresExtraBytes
  intro rounds key nonce s hk hn
  simp only [exec, execInit, initCheck_take rounds key nonce hk hn, construct, instanceWords_take]

/-! ### O24: SEEK twice (42_init_seek_stat.md section 2) -/

/-- Settles O24: a refused SEEK is refused again; the second of two block transforms starts from the same words. -/
theorem seekTwiceIsSeekOnce : Obligations.SeekTwiceIsSeekOnce := by
  unfold Obligations.SeekTwiceIsSeekOnce
  intro n s t u ht hu
  rcases commonCheck_cases s with ⟨ha, -⟩ | ⟨ha, hi, -⟩ | ⟨ha, hi, -⟩
  · obtain rfl := next_inj ((exec_aborted (.seek n) s ha nofun).symm.trans ht)
    obtain rfl := next_inj ((exec_aborted (.seek n) (raise _ s) ha nofun).symm.trans hu)
    exact ⟨rfl, rfl, rfl, rfl, rfl, rfl, rfl⟩
  · obtain rfl := next_inj ((execSeek_uninit n s ha hi).symm.trans ht)
    obtain rfl := next_inj ((execSeek_uninit n (raise _ s) ha hi).symm.trans hu)
    exact ⟨rfl, rfl, rfl, rfl, rfl, rfl, rfl⟩
  · obtain rfl := next_inj ((execSeek_generates n s ha hi).symm.trans ht)
    obtain rfl := next_inj ((execSeek_generates n (respond _ (generate (seekTo n s)))
      ((generate_abrt _).trans ha) ((generate_initd _).trans hi)).symm.trans hu)
    simp

/-! ### O50: the construction last made answers (R131, R145) -/

theorem status_ne_ok (k : ErrorKind) : k.status ≠ statusOk := by
  cases k <;> decide

/-- An INIT answered `OK` made its construction. -/
theorem execInit_ok (rounds : Word) (key nonce : List Byte) (s t : State)
    (h : exec (.init rounds key nonce) s = .next t) (hr : t.responses = s.responses ++ [[0x00]]) :
    s.abrt = false ∧ t = respond [statusOk] (construct rounds key nonce s) := by
  rcases execInit_cases rounds key nonce s with ⟨k, hx⟩ | ⟨ha, -, -, -, -, hx⟩
  · rw [← next_inj (hx.symm.trans h)] at hr
    have hk : k.status = 0x00 := by simpa using hr
    exact absurd hk (status_ne_ok k)
  · exact ⟨ha, (next_inj (hx.symm.trans h)).symm⟩

/-- Words that differ in the counter alone. -/
theorem setCounter_of_sameInstanceWords {s t : State} (h : sameInstanceWords s t) :
    t.w = setCounter s.w (counter t.w) := by
  refine (setCounter_counter t.w).symm.trans (Vector.ext ?_)
  intro j hj
  simp only [setCounter_get]
  split
  · rfl
  · split
    · rfl
    · exact h ⟨j, hj⟩ (by simp [Fin.ext_iff]; omega) (by simp [Fin.ext_iff]; omega)

theorem State.Holds.of_frame {key nonce : List Byte} {rounds : Word} {s t : State}
    (h : s.Holds key nonce rounds) (hi : t.initd = true) (hw : sameInstanceWords s t)
    (hr : t.rounds = s.rounds) : t.Holds key nonce rounds where
  initd := hi
  words := by
    have hs := setCounter_of_sameInstanceWords hw
    rwa [h.words, setCounter_instanceWords] at hs
  rounds := hr.trans h.rounds

/-- The block of index `n` of the key, nonce and round count held. -/
theorem blockOf_of_holds {key nonce : List Byte} {rounds : Word} {s : State}
    (h : s.Holds key nonce rounds) (n : BlockIndex) :
    blockOf (setCounter s.w n) s.rounds = ksBlock key nonce rounds n := by
  rw [h.words, setCounter_instanceWords, h.rounds, ksBlock]

/-- Settles O50: INIT makes the construction, no other command writes its words, and SEEK's block is READ whole. -/
theorem seekThenReadDeliversKsBlock : Obligations.SeekThenReadDeliversKsBlock := by
  unfold Obligations.SeekThenReadDeliversKsBlock
  refine ⟨?init, ?others, ?reads⟩
  case init =>
    intro key nonce rounds s t h hr
    obtain ⟨-, rfl⟩ := execInit_ok rounds key nonce s t h hr
    exact ⟨rfl, by simp, rfl⟩
  case others =>
    intro key nonce rounds i s t hs h hi
    have he := exec_effect i s t h
    obtain ⟨hw, hr⟩ := he.keeps_instance fun ⟨r, k, n, hinit⟩ => absurd hinit (hi r k n)
    exact hs.of_frame (he.keeps_initd hs.initd) hw hr
  case reads =>
    intro key nonce rounds n s hs ha
    have hout : (generate (seekTo n s)).out = ksBlock key nonce rounds n :=
      (generate_out (seekTo n s)).trans (blockOf_of_holds hs n)
    have ha' : (generate (seekTo n s)).abrt = false := (generate_abrt _).trans ha
    have hi' : (generate (seekTo n s)).initd = true := (generate_initd _).trans hs.initd
    refine ⟨_, _, execSeek_generates n s ha hs.initd,
      execRead_whole_block (respond [statusOk] (generate (seekTo n s))) (generate_cur (seekTo n s)) ha' hi',
      hout, ?_⟩
    rw [respond_responses, respond_out, hout, respond_responses, generate_responses,
      seekTo_responses, List.append_assoc]
    rfl

/-! ### O51, O52: where SEEK leaves the stream (R145; 30_encoding.md section 6) -/

/-- On an empty buffer, generating the block first does not change what a READ answers. -/
theorem readResponse_generate (n : Nat) (s : State) (hc : ¬s.cur.val < 64) (he : s.exh = false) :
    readResponse n (generate s) = readResponse n s := by
  cases n with
  | zero => rfl
  | succ n =>
    have hfull : (generate s).cur.val < 64 := by simp
    have hserve := nextByte_unread (generate s) hfull
    have hzero : (⟨(generate s).cur.val, hfull⟩ : Fin 64) = 0 := Fin.ext (by simp)
    rw [hzero] at hserve
    rw [readResponse, readResponse, drain_served n s _ _ (nextByte_refill s hc he),
      drain_served n (generate s) _ _ hserve]

theorem readResponse_respond (n : Nat) (rsp : Packet) (s : State) :
    readResponse n (respond rsp s) = readResponse n s := by
  rw [readResponse, readResponse, drain_respond]

/-- SEEK to the counter an un-exhausted engine has moves nothing. -/
theorem seekTo_counter (s : State) (he : s.exh = false) : seekTo (counter s.w) s = s := by
  rw [seekTo, setCounter_counter, ← he]

theorem execRead_response (k : Word) (s t : State) (ha : s.abrt = false) (hi : s.initd = true)
    (h : exec (.read k) s = .next t) : t.responses = s.responses ++ [readResponse k.toNat s] := by
  rw [← next_inj ((execRead_live k s ha hi).symm.trans h), respond_responses, drain_responses]

/-- With nothing unread, a SEEK to the counter's own block changes no READ: it generates the block the READ would;
an empty READ serves nothing either way. -/
theorem seek_counter_reads_same (k : Word) (s u v x : State) (ha : s.abrt = false)
    (hi : s.initd = true) (he : s.exh = false) (hc : ¬s.cur.val < 64)
    (hu : exec (.seek (counter s.w)) s = .next u) (hv : exec (.read k) s = .next v)
    (hx : exec (.read k) u = .next x) :
    ∃ rsp : Packet, v.responses = s.responses ++ [rsp] ∧ x.responses = u.responses ++ [rsp] := by
  have hseek := execSeek_generates (counter s.w) s ha hi
  rw [seekTo_counter s he] at hseek
  obtain rfl := next_inj (hseek.symm.trans hu)
  have ha' : (generate s).abrt = false := (generate_abrt s).trans ha
  have hi' : (generate s).initd = true := (generate_initd s).trans hi
  refine ⟨_, execRead_response k s v ha hi hv, ?_⟩
  rw [execRead_response k (respond _ (generate s)) x ha' hi' hx, readResponse_respond,
    readResponse_generate _ s hc he]

/-- Settles O51: a fresh construction has nothing unread and its counter at 0. -/
theorem seekZeroAfterInitReadsTheSame : Obligations.SeekZeroAfterInitReadsTheSame := by
  unfold Obligations.SeekZeroAfterInitReadsTheSame
  intro rounds key nonce k s t u v x ht hr hu hv hx
  obtain ⟨ha, rfl⟩ := execInit_ok rounds key nonce s t ht hr
  have hzero : counter (respond [statusOk] (construct rounds key nonce s)).w = 0 :=
    counter_instanceWords key nonce 0
  rw [← hzero] at hu
  exact seek_counter_reads_same k _ u v x ha rfl rfl (by simp) hu hv hx

/-- After SEEK `n` the blocks from `n` on are left, the first of them in `OUT`. -/
theorem bytesLeft_seek (n : BlockIndex) (s : State) :
    bytesLeft (generate (seekTo n s)) = 64 * (2 ^ 64 - n.toNat) := by
  have hn := n.isLt
  have hcur : (generate (seekTo n s)).cur.val = 0 := by simp
  cases he : (generate (seekTo n s)).exh with
  | true =>
    have hlast := (generate_seekTo_exh_iff n s).mp he
    rw [bytesLeft_exhausted _ he, hcur]
    omega
  | false =>
    have hlast : n.toNat ≠ 2 ^ 64 - 1 := fun h =>
      Bool.false_ne_true (he.symm.trans ((generate_seekTo_exh_iff n s).mpr h))
    rw [bytesLeft_live _ he, hcur, generate_seekTo_counter_toNat]
    omega

/-- Settles O52: SEEK leaves the blocks from `b / 64` on, and READ takes `b mod 64` bytes of the first. -/
theorem seekByteReachesItsOffset : Obligations.SeekByteReachesItsOffset := by
  unfold Obligations.SeekByteReachesItsOffset
  intro b s ha hi
  have hb := b.isLt
  have hn : (b.extractLsb' 6 64).toNat = b.toNat / 64 := by
    simp only [BitVec.extractLsb'_toNat, Nat.shiftRight_eq_div_pow]
    omega
  have hk : (BitVec.ofNat 32 (b.toNat % 64)).toNat = b.toNat % 64 := by
    rw [BitVec.toNat_ofNat]
    omega
  refine ⟨_, _, _, _, rfl, hn, hk, execSeek_generates _ s ha hi,
    execRead_live _ (respond _ _) ((generate_abrt _).trans ha) ((generate_initd _).trans hi), ?_⟩
  obtain ⟨-, -, hleft⟩ := drain_counts (b.toNat % 64)
    (respond [statusOk] (generate (seekTo (b.extractLsb' 6 64) s)))
  have hseek : bytesLeft (respond [statusOk] (generate (seekTo (b.extractLsb' 6 64) s))) =
      64 * (2 ^ 64 - b.toNat / 64) := (bytesLeft_seek _ s).trans (by rw [hn])
  rw [hk]
  change 2 ^ 70 - bytesLeft (drain _ _).state = _
  rw [hleft, hseek]
  omega

end Sys2Proof.Machine

/-! PROOFS. What holds no value never shows (93_implementation_defined.md U9 to U11). A simulation: alike engines
answer every command and step alike and stay alike, and INIT makes engines alike. -/

namespace Sys2Proof.Machine

/-! ### O54, O53: what a response depends on (93_implementation_defined.md U9 to U11) -/

/-- STAT's answer, where the words it masks count only once `INITD` is set. -/
theorem statResponse_congr {s s' : State} (hi : s.initd = s'.initd) (he : s.exh = s'.exh)
    (ha : s.abrt = s'.abrt) (hc : s.cur = s'.cur)
    (hwords : s.initd = true → s.rounds = s'.rounds ∧ s.w[12] = s'.w[12] ∧ s.w[13] = s'.w[13]) :
    statResponse s = statResponse s' := by
  have hflags : statFlags s = statFlags s' := by rw [statFlags, statFlags, hi, he, ha]
  rw [statResponse_eq, statResponse_eq, hflags, hc]
  cases hin : s.initd with
  | false =>
    have hin' := hi.symm.trans hin
    simp only [statMasked_uninit s _ hin, statMasked_uninit s' _ hin']
  | true =>
    have hin' := hi.symm.trans hin
    obtain ⟨hr, hlo, hhi⟩ := hwords hin
    simp only [statMasked_init s _ hin, statMasked_init s' _ hin', hr, hlo, hhi]

/-- Settles O54: `statResponse` names these registers alone. -/
theorem statRevealsOnlyControlState : Obligations.StatRevealsOnlyControlState := by
  unfold Obligations.StatRevealsOnlyControlState
  intro s s' hi he ha hc hr hlo hhi
  have hrsp := statResponse_congr hi he ha hc fun _ => ⟨hr, hlo, hhi⟩
  exact ⟨statResponse s, exec_stat s, by rw [exec_stat s', hrsp]⟩

section Alike

variable {s s' : State}

theorem State.Alike.respond (h : s.Alike s') (rsp : Packet) :
    (respond rsp s).Alike (respond rsp s') :=
  ⟨h.inbox, h.initd, h.exh, h.abrt, h.cur, h.w, h.rounds, h.out⟩

theorem State.Alike.setInbox (h : s.Alike s') (l : List PortEvent) :
    State.Alike { s with inbox := l } { s' with inbox := l } :=
  ⟨rfl, h.initd, h.exh, h.abrt, h.cur, h.w, h.rounds, h.out⟩

theorem State.Alike.latchAbort (h : s.Alike s') : (latchAbort s).Alike (latchAbort s') :=
  ⟨h.inbox, h.initd, h.exh, rfl, h.cur, h.w, h.rounds, h.out⟩

theorem State.Alike.seekTo (h : s.Alike s') (n : BlockIndex) :
    (seekTo n s).Alike (seekTo n s') where
  inbox := h.inbox
  initd := h.initd
  exh := rfl
  abrt := h.abrt
  cur := h.cur
  w hi := by rw [seekTo_w, seekTo_w, h.w hi]
  rounds := h.rounds
  out := h.out

/-- The block transform of a constructed engine reads `W` and `ROUNDS`, on which alike engines agree. -/
theorem State.Alike.generate (h : s.Alike s') (hi : s.initd = true) :
    (generate s).Alike (generate s') where
  inbox := by simpa using h.inbox
  initd := by simpa using h.initd
  exh := by simp [h.exh, h.w hi]
  abrt := by simpa using h.abrt
  cur := by simp
  w _ := by simp [h.w hi]
  rounds _ := by simpa using h.rounds hi
  out _ _ := by simp [h.w hi, h.rounds hi]

/-- A new construction makes engines alike that agreed only on `ABRT` and what is pending. -/
theorem construct_alike (rounds : Word) (key nonce : List Byte) (hbox : s.inbox = s'.inbox)
    (ha : s.abrt = s'.abrt) :
    (construct rounds key nonce s).Alike (construct rounds key nonce s') where
  inbox := hbox
  initd := rfl
  exh := rfl
  abrt := ha
  cur := rfl
  w _ := rfl
  rounds _ := rfl
  out _ h := by simp at h

/-- A reset makes engines alike that agreed only on what is pending. -/
theorem hardwareReset_alike (hbox : s.inbox = s'.inbox) :
    (hardwareReset s).Alike (hardwareReset s') where
  inbox := hbox
  initd := rfl
  exh := rfl
  abrt := rfl
  cur := rfl
  w h := by simp at h
  rounds h := by simp at h
  out h := by simp at h

theorem State.Alike.statResponse (h : s.Alike s') : statResponse s = statResponse s' :=
  statResponse_congr h.initd h.exh h.abrt h.cur fun hi => ⟨h.rounds hi, by rw [h.w hi], by rw [h.w hi]⟩

/-- The command answers both engines with the same response and leaves them alike. -/
def AnswersAlike (i : Instr) (s s' : State) : Prop :=
  ∃ (rsp : Packet) (u u' : State), exec i s = .next (respond rsp u) ∧
    exec i s' = .next (respond rsp u') ∧ u.Alike u' ∧
    u.responses = s.responses ∧ u'.responses = s'.responses

/-- Two engines that a command refuses with the same error. -/
theorem State.Alike.raised (h : s.Alike s') {i : Instr} (k : ErrorKind)
    (hx : exec i s = .next (raise k s)) (hx' : exec i s' = .next (raise k s')) :
    AnswersAlike i s s' :=
  ⟨[k.status], s, s', hx, hx', h, rfl, rfl⟩

theorem execInit_alike (h : s.Alike s') (rounds : Word) (key nonce : List Byte)
    (ha : s.abrt = false) : AnswersAlike (.init rounds key nonce) s s' := by
  have ha' := h.abrt.symm.trans ha
  cases hc : initCheck rounds key nonce with
  | some e => exact h.raised e (execInit_refused s e ha hc) (execInit_refused s' e ha' hc)
  | none =>
    exact ⟨_, _, _, execInit_constructs s ha hc, execInit_constructs s' ha' hc,
      construct_alike rounds key nonce h.inbox h.abrt, rfl, rfl⟩

theorem execGen_alike (h : s.Alike s') (ha : s.abrt = false) (hi : s.initd = true) :
    AnswersAlike .gen s s' := by
  have ha' := h.abrt.symm.trans ha
  have hi' := h.initd.symm.trans hi
  cases he : s.exh with
  | true =>
    exact h.raised _ (execGen_exhausted s ha hi he)
      (execGen_exhausted s' ha' hi' (h.exh.symm.trans he))
  | false =>
    exact ⟨_, _, _, execGen_generates s ha hi he,
      execGen_generates s' ha' hi' (h.exh.symm.trans he), h.generate hi, generate_responses s,
      generate_responses s'⟩

theorem execSeek_alike (h : s.Alike s') (n : BlockIndex) (ha : s.abrt = false)
    (hi : s.initd = true) : AnswersAlike (.seek n) s s' :=
  ⟨_, _, _, execSeek_generates n s ha hi,
    execSeek_generates n s' (h.abrt.symm.trans ha) (h.initd.symm.trans hi),
    (h.seekTo n).generate hi, generate_responses (seekTo n s), generate_responses (seekTo n s')⟩

theorem execRead_alike (h : s.Alike s') (k : Word) (ha : s.abrt = false) (hi : s.initd = true) :
    AnswersAlike (.read k) s s' := by
  obtain ⟨hdata, hdry, halike⟩ := drain_alike k.toNat s s' h hi
  have hrsp : readResponse k.toNat s = readResponse k.toNat s' := by
    rw [readResponse, readResponse, hdata, hdry]
  refine ⟨_, _, _, execRead_live k s ha hi, ?_, halike, drain_responses _ s, drain_responses _ s'⟩
  rw [execRead_live k s' (h.abrt.symm.trans ha) (h.initd.symm.trans hi), hrsp]

theorem execXor_alike (h : s.Alike s') (dstLen : Word) (src : List Byte) (ha : s.abrt = false)
    (hi : s.initd = true) : AnswersAlike (.xor dstLen src) s s' := by
  have ha' := h.abrt.symm.trans ha
  have hi' := h.initd.symm.trans hi
  obtain ⟨hdata, hdry, halike⟩ := drain_alike src.length s s' h hi
  by_cases hl : dstLen.toNat = src.length
  · cases hd : (drain src.length s).dry with
    | true =>
      exact ⟨_, _, _, execXor_dry dstLen src s ha hi hl hd,
        execXor_dry dstLen src s' ha' hi' hl (hdry.symm.trans hd), halike.latchAbort,
        drain_responses _ s, drain_responses _ s'⟩
    | false =>
      refine ⟨_, _, _, execXor_served dstLen src s ha hi hl hd, ?_, halike, drain_responses _ s,
        drain_responses _ s'⟩
      rw [execXor_served dstLen src s' ha' hi' hl (hdry.symm.trans hd), hdata]
  · exact h.raised _ (execXor_lengthMismatch dstLen src s ha hi hl)
      (execXor_lengthMismatch dstLen src s' ha' hi' hl)

/-- Every command answers alike engines alike: the common checks look at flags on which they agree. -/
theorem exec_alike (h : s.Alike s') (i : Instr) : AnswersAlike i s s' := by
  by_cases hstat : i = .stat
  · subst hstat
    exact ⟨_, s, s', exec_stat s, by rw [exec_stat, h.statResponse], h, rfl, rfl⟩
  cases ha : s.abrt with
  | true =>
    exact h.raised _ (exec_aborted i s ha hstat) (exec_aborted i s' (h.abrt.symm.trans ha) hstat)
  | false =>
    have ha' := h.abrt.symm.trans ha
    cases hi : s.initd with
    | false =>
      have hi' := h.initd.symm.trans hi
      cases i with
      | init r key nonce => exact execInit_alike h r key nonce ha
      | gen => exact h.raised _ (execGen_uninit s ha hi) (execGen_uninit s' ha' hi')
      | seek n => exact h.raised _ (execSeek_uninit n s ha hi) (execSeek_uninit n s' ha' hi')
      | read k => exact h.raised _ (execRead_uninit k s ha hi) (execRead_uninit k s' ha' hi')
      | xor d src =>
        exact h.raised _ (execXor_uninit d src s ha hi) (execXor_uninit d src s' ha' hi')
      | stat => exact absurd rfl hstat
    | true =>
      cases i with
      | init r key nonce => exact execInit_alike h r key nonce ha
      | gen => exact execGen_alike h ha hi
      | seek n => exact execSeek_alike h n ha hi
      | read k => exact execRead_alike h k ha hi
      | xor d src => exact execXor_alike h d src ha hi
      | stat => exact absurd rfl hstat

/-- A step on each of two alike engines: the same event is taken and answered alike. -/
theorem step_alike (h : s.Alike s') : ∃ (t t' : State) (rsps : List Packet),
    step s = .next t ∧ step s' = .next t' ∧ t.Alike t' ∧
    t.responses = s.responses ++ rsps ∧ t'.responses = s'.responses ++ rsps := by
  rcases step_cases s with ⟨hbox, hx⟩ | ⟨cmd, rest, i, hbox, hd, hx⟩ |
    ⟨cmd, rest, e, hbox, hd, hx⟩ | ⟨c, rest, hbox, hx⟩
  all_goals have hbox' := h.inbox.symm.trans hbox
  · exact ⟨s, s', [], hx, step_waits s' hbox', h, by simp, by simp⟩
  · obtain ⟨rsp, u, u', hu, hu', halike, hr, hr'⟩ := exec_alike (h.setInbox rest) i
    exact ⟨_, _, [rsp], hx.trans hu, (step_packet_ok s' cmd rest i hbox' hd).trans hu',
      halike.respond rsp, by rw [respond_responses, hr], by rw [respond_responses, hr']⟩
  · exact ⟨_, _, [_], hx, step_packet_error s' cmd rest e hbox' hd, (h.setInbox rest).respond _,
      rfl, rfl⟩
  · exact ⟨_, _, [], hx, step_reset s' c rest hbox', hardwareReset_alike rfl, by simp, by simp⟩

end Alike

/-- Settles O53: by the simulation of alike engines, one step at a time. -/
theorem unspecifiedContentsNeverShow : Obligations.UnspecifiedContentsNeverShow := fun _ _ h =>
  step_alike h

/-! ### O55: engines constructed alike (60_exceptions.md section 8) -/

theorem run_zero (s : State) : Sys2Proof.core.run 0 s = .next s := rfl

theorem core_run_succ (M : Host.Core) {s t : M.State} (h : M.step s = .next t) (n : Nat) :
    M.run (n + 1) s = M.run n t := by
  rw [Host.Core.run, h]

theorem run_succ {s t : State} (h : step s = .next t) (n : Nat) :
    Sys2Proof.core.run (n + 1) s = Sys2Proof.core.run n t :=
  core_run_succ Sys2Proof.core h n

/-- Alike engines never stop and give the same responses for ever. -/
theorem run_alike (n : Nat) (s s' : State) (h : s.Alike s') :
    ∃ (t t' : State) (rsps : List Packet),
      Sys2Proof.core.run n s = .next t ∧ Sys2Proof.core.run n s' = .next t' ∧
      t.responses = s.responses ++ rsps ∧ t'.responses = s'.responses ++ rsps := by
  induction n generalizing s s' with
  | zero => exact ⟨s, s', [], run_zero s, run_zero s', by simp, by simp⟩
  | succ n ih =>
    obtain ⟨u, u', first, hu, hu', halike, hr, hr'⟩ := step_alike h
    obtain ⟨t, t', later, ht, ht', htr, htr'⟩ := ih u u' halike
    exact ⟨t, t', first ++ later, (run_succ hu n).trans ht, (run_succ hu' n).trans ht',
      by rw [htr, hr, List.append_assoc], by rw [htr', hr', List.append_assoc]⟩

/-- The step on an INIT packet with acceptable operands. -/
theorem step_constructs (rounds : Word) (key nonce : List Byte) (rest : List PortEvent) (s : State)
    (hwf : (Instr.init rounds key nonce).wf = true) (ha : s.abrt = false)
    (hc : initCheck rounds key nonce = none)
    (hbox : s.inbox = .packet (encode (.init rounds key nonce)) :: rest) :
    step s = .next (respond [statusOk] (construct rounds key nonce { s with inbox := rest })) :=
  (step_packet_ok s _ rest _ hbox (decode_encode _ hwf)).trans
    (execInit_constructs { s with inbox := rest } ha hc)

/-- Settles O55: the INIT packet makes the engines alike, and alike engines answer alike. -/
theorem sameConstructionSameResponses : Obligations.SameConstructionSameResponses := by
  unfold Obligations.SameConstructionSameResponses
  intro rounds key nonce rest s s' hwf hk hn h2 heven ha ha' hbox hbox' n
  have hc := initCheck_passed hk hn h2 heven
  cases n with
  | zero => exact ⟨s, s', [], run_zero s, run_zero s', by simp, by simp⟩
  | succ n =>
    have hstep := step_constructs rounds key nonce rest s hwf ha hc hbox
    have hstep' := step_constructs rounds key nonce rest s' hwf ha' hc (hbox'.trans hbox)
    have halike := (construct_alike (s := { s with inbox := rest }) (s' := { s' with inbox := rest })
      rounds key nonce rfl (ha.trans ha'.symm)).respond [statusOk]
    obtain ⟨t, t', rsps, ht, ht', hr, hr'⟩ := run_alike n _ _ halike
    refine ⟨t, t', [statusOk] :: rsps, (run_succ hstep n).trans ht, (run_succ hstep' n).trans ht',
      ?_, ?_⟩
    · rw [hr, respond_responses, List.append_assoc]
      rfl
    · rw [hr', respond_responses, List.append_assoc]
      rfl

end Sys2Proof.Machine
